-- ==== Sys2Proof/Word.lean ====
section
/-! DEFINITION. The word types of WWCA-CORE: bytes, register indices, the program counter.

A byte is an unsigned integer 0..255 (00_scope.md R11), a register index is 0..7 (10_state.md R31),
and the program counter is 9 bits wide (10_state.md R36, log 13). -/

namespace Sys2Proof

/-- A byte of memory, a register's value, an opcode or an operand (R11). Bit 7 is the most significant (R12). -/
abbrev Byte := BitVec 8

/-- A register index 0..7 (R31). A byte above 7 is no index; see `checkReg` in Decode.lean. -/
abbrev Reg := Fin 8

/-- The program counter: 9 bits, reachable values 0..256 (R36; log 13). -/
abbrev Pc := BitVec 9

/-- `trunc8(v) = v mod 256`, the only narrowing of exact arithmetic the machine has (R11). -/
def trunc8 (v : Nat) : Byte := BitVec.ofNat 8 v

end Sys2Proof
end

