-- ==== Sys2Proof/Config.lean ====
section
/-! DEFINITION. The configuration of 00_scope.md R7: what an implementation fixes before a run.

The types stand here. The values the machine of `step` has are chosen in Decode.lean (`defaultOpcode`)
and in Machine/Ops.lean (`machineConfig`). The spec leaves no value open besides these parameters, so
there is no free value. -/

namespace Sys2Proof

/-- The 14 mnemonics, in the source's order (30_encoding.md R90). -/
inductive Mnemonic where
  | ldi | prn | add | mul | st | push | pop | call | ret | cmp | jeq | jne | jmp | hlt
deriving DecidableEq, Repr

/-- The parameter `OPCODE`: mnemonic to opcode byte (R7, R92). -/
abbrev OpcodeMap := Mnemonic → Byte

/-- The parameter `CMP_EQUAL_RULE` (R7, R164). -/
inductive CmpEqualRule where
  /-- equal = not (a < b), the observed design. -/
  | literal
  /-- equal = (a = b). -/
  | corrected
deriving DecidableEq, Repr

/-- The parameter `ST_ADVANCE`, 2 or 3 (R7, R180). -/
inductive StAdvance where
  | two
  | three
deriving DecidableEq, Repr

/-- The configuration `Cfg` of 10_state.md R51. It is no part of the state (R30): nothing writes it. -/
structure Config where
  opcode              : OpcodeMap
  cmpEqual            : CmpEqualRule
  stAdvance           : StAdvance
  stackUnderflowCheck : Bool

end Sys2Proof
end

