-- ==== Sys2Proof/Syntax.lean ====
section
/-! DEFINITION. The instructions of WWCA-CORE, one constructor per row of spec/opcode_table.json.

An `Instr` is an instruction whose register operands have passed the check of 30_encoding.md R96, so a
register operand is a `Reg`: an instruction that names a register above 7 cannot be written down. The
unchecked form, with raw operand bytes, is `RawInstr` in WellFormed.lean. -/

namespace Sys2Proof

/-- The 14 instructions (30_encoding.md R90, R94). `a` is the register named by b1, `b` the one named by b2. -/
inductive Instr where
  /-- `LDI Ra,imm` (R150) -/
  | ldi (a : Reg) (imm : Byte)
  /-- `PRN Ra` (R152) -/
  | prn (a : Reg)
  /-- `ADD Ra,Rb` (R165) -/
  | add (a b : Reg)
  /-- `MUL Ra,Rb` (R166) -/
  | mul (a b : Reg)
  /-- `ST Ra,Rb`: store x[b] at address x[a] (R180) -/
  | st (a b : Reg)
  /-- `PUSH Ra` (R186) -/
  | push (a : Reg)
  /-- `POP Ra` (R185) -/
  | pop (a : Reg)
  /-- `CALL Ra` (R200) -/
  | call (a : Reg)
  /-- `RET` (R202) -/
  | ret
  /-- `CMP Ra,Rb` (R210) -/
  | cmp (a b : Reg)
  /-- `JEQ Ra` (R212; one operand, 90_conflicts.md C3) -/
  | jeq (a : Reg)
  /-- `JNE Ra` (R213; one operand, 90_conflicts.md C3) -/
  | jne (a : Reg)
  /-- `JMP Ra` (R214) -/
  | jmp (a : Reg)
  /-- `HLT` (R230) -/
  | hlt
deriving DecidableEq, Repr

end Sys2Proof
end

