-- ==== Sys2Proof/WellFormed.lean ====
section
/-! DEFINITION. What the encoding asks of an instruction, of an opcode map and of an image.

The check is stated here as the tables of 30_encoding.md state it; the decoder (Decode.lean) makes the
same check operand by operand, and Laws/Decode.lean proves that the two agree. -/

namespace Sys2Proof

/-- The mnemonics as a list, in the order of R90. -/
def Mnemonic.all : List Mnemonic :=
  [.ldi, .prn, .add, .mul, .st, .push, .pop, .call, .ret, .cmp, .jeq, .jne, .jmp, .hlt]

/-- A dispatched window before its operands are checked: `(m, b1, b2)` of 40_cycle.md R128. -/
structure RawInstr where
  m  : Mnemonic
  b1 : Byte
  b2 : Byte
deriving DecidableEq, Repr

/-- The operand bytes that are checked as register indices, in checking order (30_encoding.md R96). -/
def RawInstr.checkedOperands (r : RawInstr) : List Byte :=
  match r.m with
  | .ldi | .prn | .push | .pop | .call | .jeq | .jne | .jmp => [r.b1]
  | .add | .mul | .cmp | .st => [r.b1, r.b2]
  | .ret | .hlt => []

/-- The first checked operand byte above 7, if any (R96, R99): the one InvalidRegister reports. -/
def RawInstr.firstBadRegister (r : RawInstr) : Option Byte :=
  r.checkedOperands.find? fun b => decide (7 < b.toNat)

/-- Every checked register operand is in 0..7 (R99). -/
def RawInstr.wellFormed (r : RawInstr) : Bool :=
  r.checkedOperands.all fun b => decide (b.toNat ≤ 7)

/-- The raw form of an instruction; window bytes it ignores are 0 here (R97 lets them be anything). -/
def Instr.raw : Instr → RawInstr
  | .ldi a imm => ⟨.ldi, BitVec.ofNat 8 a.val, imm⟩
  | .prn a => ⟨.prn, BitVec.ofNat 8 a.val, 0⟩
  | .add a b => ⟨.add, BitVec.ofNat 8 a.val, BitVec.ofNat 8 b.val⟩
  | .mul a b => ⟨.mul, BitVec.ofNat 8 a.val, BitVec.ofNat 8 b.val⟩
  | .st a b => ⟨.st, BitVec.ofNat 8 a.val, BitVec.ofNat 8 b.val⟩
  | .push a => ⟨.push, BitVec.ofNat 8 a.val, 0⟩
  | .pop a => ⟨.pop, BitVec.ofNat 8 a.val, 0⟩
  | .call a => ⟨.call, BitVec.ofNat 8 a.val, 0⟩
  | .ret => ⟨.ret, 0, 0⟩
  | .cmp a b => ⟨.cmp, BitVec.ofNat 8 a.val, BitVec.ofNat 8 b.val⟩
  | .jeq a => ⟨.jeq, BitVec.ofNat 8 a.val, 0⟩
  | .jne a => ⟨.jne, BitVec.ofNat 8 a.val, 0⟩
  | .jmp a => ⟨.jmp, BitVec.ofNat 8 a.val, 0⟩
  | .hlt => ⟨.hlt, 0, 0⟩

/-- An instruction is well formed when its raw form is. Every `Instr` is (Laws/PerInstr.lean): its
register operands are checked indices already. -/
def Instr.wellFormed (i : Instr) : Bool := i.raw.wellFormed

/-- R92 (a) and (b): 14 distinct bytes, none of them 0x00. -/
def OpcodeMap.wellFormed (opc : OpcodeMap) : Bool :=
  Mnemonic.all.all fun m => decide (opc m ≠ 0) && Mnemonic.all.all fun n => decide (opc m = opc n → m = n)

/-- R273: an image has at most 256 bytes. -/
def imageWellFormed (image : List Byte) : Bool := decide (image.length ≤ 256)

end Sys2Proof
end

