-- ==== Sys2Proof/Decode.lean ====
section
/-! DEFINITION. Decoding a three-byte window, and encoding an instruction.

Both are written over an opcode map (the parameter OPCODE of R92) and the format tables of
30_encoding.md R93 and R94. Decoding is total and rejects by name (R104). -/

namespace Sys2Proof

/-- The default of the OPEN parameter OPCODE: the LS-8 values, from general knowledge and in no source
(30_encoding.md R92, 93_implementation_defined.md G1). PRESUMED, unsafe: log 1. -/
def defaultOpcode : OpcodeMap
  | .ldi => 0x82
  | .prn => 0x47
  | .add => 0xA0
  | .mul => 0xA2
  | .st => 0x84
  | .push => 0x45
  | .pop => 0x46
  | .call => 0x50
  | .ret => 0x11
  | .cmp => 0xA7
  | .jeq => 0x55
  | .jne => 0x56
  | .jmp => 0x54
  | .hlt => 0x01

/-- The fetch window: the bytes at pc, pc+1 and pc+2 (R93). -/
structure Window where
  b0 : Byte
  b1 : Byte
  b2 : Byte
deriving DecidableEq, Repr

/-- The first three bytes of a list as a window; a byte the list lacks is 0. -/
def Window.ofBytes : List Byte → Window
  | [] => ⟨0, 0, 0⟩
  | [b0] => ⟨b0, 0, 0⟩
  | [b0, b1] => ⟨b0, b1, 0⟩
  | b0 :: b1 :: b2 :: _ => ⟨b0, b1, b2⟩

/-- Why a window is no instruction (R104). -/
inductive DecodeError where
  /-- b0 is not the opcode of any instruction (R98, R123). -/
  | invalidOpcode (b0 : Byte)
  /-- a checked register operand byte is above 7 (R99, R125). -/
  | invalidRegister (b : Byte)
deriving DecidableEq, Repr

/-- Dispatch (R123): the mnemonic whose opcode is `b0`. -/
def dispatch (opc : OpcodeMap) (b0 : Byte) : Option Mnemonic :=
  Mnemonic.all.find? fun m => decide (opc m = b0)

/-- `checkReg(r)`: InvalidRegister when r > 7, else the index (00_scope.md R14; R95). -/
def checkReg (b : Byte) : Except DecodeError Reg :=
  if h : b.toNat < 8 then .ok ⟨b.toNat, h⟩ else .error (.invalidRegister b)

/-- Formats N: no operand. -/
def formatN (mk : Instr) : Except DecodeError Instr := .ok mk

/-- Format R: b1 is checked, b2 is ignored (R93, R97). -/
def formatR (mk : Reg → Instr) (b1 : Byte) : Except DecodeError Instr := do
  let a ← checkReg b1
  return mk a

/-- Format RI: b1 is checked, b2 is the immediate and is not (R93, R96). -/
def formatRI (mk : Reg → Byte → Instr) (b1 b2 : Byte) : Except DecodeError Instr := do
  let a ← checkReg b1
  return mk a b2

/-- Formats RR and RRS: b1 is checked first, then b2 (R93, R96). -/
def formatRR (mk : Reg → Reg → Instr) (b1 b2 : Byte) : Except DecodeError Instr := do
  let a ← checkReg b1
  let b ← checkReg b2
  return mk a b

/-- The operands of a dispatched mnemonic, by its format (R90, R94). -/
def decodeOperands (m : Mnemonic) (b1 b2 : Byte) : Except DecodeError Instr :=
  match m with
  | .ldi => formatRI .ldi b1 b2
  | .prn => formatR .prn b1
  | .add => formatRR .add b1 b2
  | .mul => formatRR .mul b1 b2
  | .st => formatRR .st b1 b2
  | .push => formatR .push b1
  | .pop => formatR .pop b1
  | .call => formatR .call b1
  | .ret => formatN .ret
  | .cmp => formatRR .cmp b1 b2
  | .jeq => formatR .jeq b1
  | .jne => formatR .jne b1
  | .jmp => formatR .jmp b1
  | .hlt => formatN .hlt

/-- The decoder: dispatch first, then the operand check (R104, R120, R125). -/
def decode (opc : OpcodeMap) (w : Window) : Except DecodeError Instr :=
  match dispatch opc w.b0 with
  | none => .error (.invalidOpcode w.b0)
  | some m => decodeOperands m w.b1 w.b2

/-- The operand byte that names a register (R95). -/
def regByte (r : Reg) : Byte := BitVec.ofNat 8 r.val

/-- The operand bytes an instruction has, in ascending address order (R93, R94). -/
def encodeOperands : Instr → List Byte
  | .ldi a imm => [regByte a, imm]
  | .prn a | .push a | .pop a | .call a | .jeq a | .jne a | .jmp a => [regByte a]
  | .add a b | .mul a b | .st a b | .cmp a b => [regByte a, regByte b]
  | .ret | .hlt => []

/-- The mnemonic of an instruction. -/
def Instr.mnemonic (i : Instr) : Mnemonic := i.raw.m

/-- The encoder: the opcode byte, then the operand bytes (R91). The list's length is the number of bytes
the instruction occupies (R94, R100); an ST occupies three, whatever ST_ADVANCE is. -/
def encode (opc : OpcodeMap) (i : Instr) : List Byte := opc i.mnemonic :: encodeOperands i

/-- The window whose bytes are the low `nbits` bits of `w`, the first byte lowest (bits 7..0), the second
at bits 15..8, the third at bits 23..16; every bit above `nbits` is 0. -/
def windowOfTableWord (nbits w : Nat) : Window :=
  let v := w % 2 ^ nbits
  ⟨BitVec.ofNat 8 v, BitVec.ofNat 8 (v / 2 ^ 8), BitVec.ofNat 8 (v / 2 ^ 16)⟩

/-- The instruction this decoder reads from a word numbered as spec/opcode_table.json numbers it, under
the default opcode map; none where it refuses. -/
def decodeTableWord (nbits w : Nat) : Option Instr :=
  match decode defaultOpcode (windowOfTableWord nbits w) with
  | .ok i => some i
  | .error _ => none

/-- A register operand in assembly text (R101). -/
def asmReg (r : Reg) : String := "R" ++ toString r.val

/-- The assembly text of an instruction: upper-case mnemonic, operands in the order of R94 separated by a
comma, an immediate in decimal (30_encoding.md R101; log 24). -/
def asmText : Instr → String
  | .ldi a imm => "LDI " ++ asmReg a ++ "," ++ toString imm.toNat
  | .prn a => "PRN " ++ asmReg a
  | .add a b => "ADD " ++ asmReg a ++ "," ++ asmReg b
  | .mul a b => "MUL " ++ asmReg a ++ "," ++ asmReg b
  | .st a b => "ST " ++ asmReg a ++ "," ++ asmReg b
  | .push a => "PUSH " ++ asmReg a
  | .pop a => "POP " ++ asmReg a
  | .call a => "CALL " ++ asmReg a
  | .ret => "RET"
  | .cmp a b => "CMP " ++ asmReg a ++ "," ++ asmReg b
  | .jeq a => "JEQ " ++ asmReg a
  | .jne a => "JNE " ++ asmReg a
  | .jmp a => "JMP " ++ asmReg a
  | .hlt => "HLT"

/-- A line of assembly text: instructions separated by a semicolon and a space (R101). -/
def asmLine (is : List Instr) : String := String.intercalate "; " (is.map asmText)

end Sys2Proof
end

