-- ==== Sys2Proof/Machine/State.lean ====
section
/-! DEFINITION. The architectural state of WWCA-CORE (10_state.md R30), the reasons a step can stop, reset.

State is plain data and holds everything the spec gives the machine. The configuration of R7 is no part of
it (R30), and neither are the window latches of R50, which carry nothing from one step to the next. -/

namespace Sys2Proof.Machine

/-- The flag register: three independent booleans (R40, R43). -/
structure Flags where
  /-- `fl.G`, greater -/
  g : Bool
  /-- `fl.L`, less -/
  l : Bool
  /-- `fl.E`, equal -/
  e : Bool
deriving DecidableEq, Repr

/-- The four error kinds (60_exceptions.md R240). -/
inductive ErrorKind where
  | outOfRange
  | invalidRegister
  | invalidOpcode
  | stackUnderflow
deriving DecidableEq, Repr

/-- The error record (10_state.md R46, 60_exceptions.md R243). `info` is an integer: an address in it may be
-1 or 256. -/
structure Err where
  kind : ErrorKind
  code : Nat
  info : Int
  pc   : Pc
deriving DecidableEq, Repr

/-- The run state (10_state.md R45). -/
inductive RunState where
  | running
  | halted
  | faulted (err : Err)
deriving DecidableEq, Repr

/-- Memory as a list of (address, byte), in the one canonical form of `Memory.wf`. -/
abbrev Memory := List Host.Cell

/-- What an address the list does not name reads as: memory is zero at allocation (70_reset_and_hazards.md R271). -/
def Memory.unlisted : Byte := 0

/-- The canonical form: addresses strictly rising, all below 256 (R60), no entry equal to what an unlisted
address reads as. -/
abbrev Memory.wf (m : Memory) : Prop :=
  m.Pairwise (fun c d => c.1 < d.1) ∧ ∀ c ∈ m, c.1 < 256 ∧ c.2 ≠ Memory.unlisted

/-- The architectural state (10_state.md R30, R51). -/
structure State where
  /-- 256 bytes of memory (R48) -/
  mem : Memory
  /-- the 8 general registers; `x[7]` is the stack pointer (R31, R32) -/
  x   : Vector Byte 8
  /-- the flag register (R40) -/
  fl  : Flags
  /-- the program counter (R36) -/
  pc  : Pc
  /-- the run state, with the error record of a fault (R45, R46) -/
  run : RunState
  /-- the bytes PRN has emitted, in program order (R47) -/
  out : List Byte
deriving DecidableEq, Repr

/-- Why the machine has no step. -/
inductive Fault where
  /-- Answered by `step` in a state whose run state is `halted`: the engine has no step (40_cycle.md R127).
  Safe: nothing runs, and no state is claimed. -/
  | halted
  /-- Answered by `step` in a state whose run state is `faulted err`: the engine has no step (R127, R241).
  Safe, for the same reason. The step that RAISES an error is no fault: it answers the next state, with
  `run = faulted err` (40_cycle.md R128; log 5). -/
  | faulted (err : Err)
deriving DecidableEq, Repr

/-- Why an instruction has no meaning. -/
inductive Refusal where
  /-- Answered by an arm of `exec` whose instruction has no meaning yet; no arm of this model does. Safe. -/
  | notModelled (mnemonic : String)
deriving DecidableEq, Repr

/-- The state right after reset, no image loaded (70_reset_and_hazards.md R270, R271): memory zero, R0..R6
zero, R7 = 0xF4 (10_state.md R34), flags false (R40), pc 0 (R39), running, nothing emitted. -/
def State.reset : State where
  mem := []
  x   := #v[0, 0, 0, 0, 0, 0, 0, 0xF4]
  fl  := ⟨false, false, false⟩
  pc  := 0
  run := .running
  out := []

end Sys2Proof.Machine
end

