-- ==== Sys2Proof/Machine/Ops.lean ====
section
/-! DEFINITION. The named operations over registers, memory, flags, pc and output; raising an error; the
chosen configuration.

Raising an error is ONE operation, `raise` (R14, R128). There is no operation beside it that returns from an
error: the hardware has no trap return, and only a new start runs a faulted machine again (60_exceptions.md R251). -/

namespace Sys2Proof.Machine

/-- What a step or a meaning answers. -/
abbrev Result := Host.Outcome State Fault Refusal

/-- The next state, where there is one. -/
def next? : Result → Option State
  | .next t => some t
  | _ => none

/-- The configuration of the machine that `exec` and `step` run: the spec's choices (00_scope.md R7).
DESIGN CHOICE and PRESUMED, unsafe: log 1, 2, 3, 4. `stepWith` takes any other. -/
def machineConfig : Config where
  opcode              := defaultOpcode
  cmpEqual            := .literal
  stAdvance           := .two
  stackUnderflowCheck := false

/-- The index of the stack pointer, `SP_INDEX` (R7, R32). -/
def SP : Reg := 7

/-- `SP_INIT` = 0xF4 (R7, R34). -/
def spInit : Byte := 0xF4

/-! ### Registers, pc, flags, output -/

/-- `x[r]`: no register is hardwired (10_state.md R33). -/
def State.reg (s : State) (r : Reg) : Byte := s.x[r.val]

/-- `x[r] <- v`. -/
def State.setReg (s : State) (r : Reg) (v : Byte) : State := { s with x := s.x.set r.val v }

/-- `pc <- t` for a byte t (45_compare_branch.md R215). -/
def State.jump (s : State) (t : Byte) : State := { s with pc := t.setWidth 9 }

/-- `pc <- pc + n`, an addition on integers (10_state.md R38). After a fetch the sum is at most 256 and
fits (R36; log 13). -/
def State.advance (s : State) (n : Nat) : State := { s with pc := BitVec.ofNat 9 (s.pc.toNat + n) }

/-- All three flags written together (10_state.md R41). -/
def State.setFlags (s : State) (f : Flags) : State := { s with fl := f }

/-- `emit(v)`: append v to the output (00_scope.md R13, 41_load_print.md R152). -/
def State.emit (s : State) (v : Byte) : State := { s with out := s.out ++ [v] }

/-- `run <- Halted` (46_halt.md R230). -/
def State.halt (s : State) : State := { s with run := .halted }

/-! ### Errors -/

/-- A raised error: its kind and its info (00_scope.md R14). -/
structure Raised where
  kind : ErrorKind
  info : Int
deriving DecidableEq, Repr

/-- The cause code of a kind (60_exceptions.md R240). -/
def ErrorKind.code : ErrorKind → Nat
  | .outOfRange => 1
  | .invalidRegister => 2
  | .invalidOpcode => 3
  | .stackUnderflow => 4

/-- `raise E(info)`: the run state becomes Faulted with the record {kind, code, info, pc}, and every other
part of the state is as before (40_cycle.md R128, 60_exceptions.md R241 to R243). -/
def raise (e : Raised) (s : State) : State :=
  { s with run := .faulted { kind := e.kind, code := e.kind.code, info := e.info, pc := s.pc } }

/-- The error of a window that is no instruction (R123, R125). -/
def raisedOfDecode : DecodeError → Raised
  | .invalidOpcode b => ⟨.invalidOpcode, b.toNat⟩
  | .invalidRegister b => ⟨.invalidRegister, b.toNat⟩

/-- The `try … on raise` of 40_cycle.md R128: a handler that completes gives its state; one that raises
gives the state before it, faulted. -/
def settle (s : State) (r : Except Raised State) : Result :=
  match r with
  | .ok t => .next t
  | .error e => .next (raise e s)

/-! ### Memory -/

/-- One byte of memory. -/
def Memory.read : Memory → Nat → Byte
  | [], _ => Memory.unlisted
  | (k, w) :: rest, a => if a = k then w else Memory.read rest a

/-- Put a cell before a memory, unless the byte is what an unlisted address reads as. -/
def Memory.putFirst (a : Nat) (v : Byte) (m : Memory) : Memory :=
  if v = Memory.unlisted then m else (a, v) :: m

/-- Write one byte, keeping the canonical form. -/
def Memory.write : Memory → Nat → Byte → Memory
  | [], a, v => Memory.putFirst a v []
  | (k, w) :: rest, a, v =>
    if a < k then Memory.putFirst a v ((k, w) :: rest)
    else if a = k then Memory.putFirst a v rest
    else (k, w) :: Memory.write rest a v

/-- Write consecutive bytes from an address on. -/
def Memory.writeAll (m : Memory) (a : Nat) : List Byte → Memory
  | [] => m
  | v :: vs => Memory.writeAll (m.write a v) (a + 1) vs

/-- `mem[a]`, the read of one byte that statements use. -/
def State.byteAt (s : State) (a : Nat) : Byte := s.mem.read a

/-- `mem[a] <- v`, with no range check. -/
def State.setByte (s : State) (a : Nat) (v : Byte) : State := { s with mem := s.mem.write a v }

/-- An address inside the one address space, 0..255 (20_memory.md R60). -/
abbrev inRange (a : Int) : Prop := 0 ≤ a ∧ a ≤ 255

/-- `MemRead(a, 1)` (20_memory.md R61). -/
def memRead (s : State) (a : Int) : Except Raised Byte :=
  if inRange a then .ok (s.mem.read a.toNat) else .error ⟨.outOfRange, a⟩

/-- `MemWrite(a, 1, v)` (20_memory.md R62). -/
def memWrite (s : State) (a : Int) (v : Byte) : Except Raised State :=
  if inRange a then .ok (s.setByte a.toNat v) else .error ⟨.outOfRange, a⟩

end Sys2Proof.Machine
end

