-- ==== Sys2Proof/Machine/Operands.lean ====
section
/-! DEFINITION. Where an instruction's operands lie: register-indirect addresses and targets, the return
address, and the stack, which is full-descending (43_memory_stack.md R182). -/

namespace Sys2Proof.Machine

/-- The address ST stores to: x[A] (43_memory_stack.md R180). -/
def storeAddress (s : State) (a : Reg) : Int := (s.reg a).toNat

/-- The target of a jump or a call: x[A], absolute (45_compare_branch.md R215). -/
def jumpTarget (s : State) (a : Reg) : Byte := s.reg a

/-- The amount ST adds to pc (00_scope.md R7, 43_memory_stack.md R180). -/
def stAmount : StAdvance → Nat
  | .two => 2
  | .three => 3

/-- The return address CALL pushes: pc + 2, as a byte. After a fetch pc ≤ 253, so it fits
(44_subroutine.md R200; log 13). -/
def returnAddress (s : State) : Byte := trunc8 (s.pc.toNat + 2)

/-- The stack-pointer decrement: OutOfRange(-1) at 0 (43_memory_stack.md R183; log 10). -/
def spDecrement (v : Byte) : Except Raised Byte :=
  if v = 0 then .error ⟨.outOfRange, -1⟩ else .ok (trunc8 (v.toNat - 1))

/-- The stack-pointer increment: OutOfRange(256) where it would leave 256 (43_memory_stack.md R184; log 10). -/
def spIncrement (v : Byte) : Except Raised Byte :=
  if v.toNat + 1 > 255 then .error ⟨.outOfRange, 256⟩ else .ok (trunc8 (v.toNat + 1))

/-- The StackUnderflow check of POP and RET, where the configuration has it (43_memory_stack.md R187; log 4). -/
def underflowCheck (check : Bool) (s : State) : Except Raised Unit :=
  if check = true ∧ spInit.toNat ≤ (s.reg SP).toNat then .error ⟨.stackUnderflow, (s.reg SP).toNat⟩
  else .ok ()

/-- A push, by PUSH or CALL: decrement x[7], then write at the new x[7]. The pushed value is computed from
the state after the decrement (43_memory_stack.md R182, R186; log 11). -/
def push (s : State) (value : State → Byte) : Except Raised State := do
  let sp ← spDecrement (s.reg SP)
  let s1 := s.setReg SP sp
  memWrite s1 (s1.reg SP).toNat (value s1)

/-- The read of a pop, by POP or RET: the byte at x[7] (43_memory_stack.md R182). -/
def stackTop (s : State) : Except Raised Byte := memRead s (s.reg SP).toNat

end Sys2Proof.Machine
end

