-- ==== Sys2Proof/Machine/Arith.lean ====
section
/-! DEFINITION. The ALU's arithmetic, and ADD and MUL (42_arith.md). Neither writes a flag (R167). -/

namespace Sys2Proof.Machine

/-- `alu_add(a, b) = trunc8(a + b)` (R161). -/
def aluAdd (a b : Byte) : Byte := trunc8 (a.toNat + b.toNat)

/-- `alu_mul(a, b) = trunc8(a × b)` (R162). -/
def aluMul (a b : Byte) : Byte := trunc8 (a.toNat * b.toNat)

/-- `alu_sub(a, b) = trunc8(a − b)` (R163). No instruction reaches it: the set has no SUB (00_scope.md R6). -/
def aluSub (a b : Byte) : Byte := BitVec.ofInt 8 (a.toNat - b.toNat)

/-- ADD: `x[A] <- alu_add(x[A], x[B]); pc <- pc + 3` (R165). -/
def execAdd (a b : Reg) (s : State) : Result :=
  .next ((s.setReg a (aluAdd (s.reg a) (s.reg b))).advance 3)

/-- MUL: `x[A] <- alu_mul(x[A], x[B]); pc <- pc + 3` (R166). -/
def execMul (a b : Reg) (s : State) : Result :=
  .next ((s.setReg a (aluMul (s.reg a) (s.reg b))).advance 3)

end Sys2Proof.Machine
end

