-- ==== Sys2Proof/Machine/Flags.lean ====
section
/-! DEFINITION. The one flag computation of the machine: the ALU's compare (42_arith.md R164). -/

namespace Sys2Proof.Machine

/-- The equal flag under either equal rule (R164). Under `literal` it is true whenever a is not less than b. -/
def equalFlag (rule : CmpEqualRule) (a b : Byte) : Bool :=
  match rule with
  | .literal => !decide (a.toNat < b.toNat)
  | .corrected => decide (a.toNat = b.toNat)

/-- `alu_compare(a, b) = (G, L, E)`, unsigned (R160, R164). -/
def aluCompare (rule : CmpEqualRule) (a b : Byte) : Flags where
  g := decide (a.toNat > b.toNat)
  l := decide (a.toNat < b.toNat)
  e := equalFlag rule a b

end Sys2Proof.Machine
end

