-- ==== Sys2Proof/Machine/CompareBranch.lean ====
section
/-! DEFINITION. CMP, JEQ, JNE and JMP (45_compare_branch.md). A jump writes no flag (10_state.md R42). -/

namespace Sys2Proof.Machine

/-- CMP under a configuration: all three flags from `alu_compare(x[A], x[B])`; `pc <- pc + 3` (R210). -/
def execCmpWith (cfg : Config) (a b : Reg) (s : State) : Result :=
  .next ((s.setFlags (aluCompare cfg.cmpEqual (s.reg a) (s.reg b))).advance 3)

/-- CMP (R210) with the chosen CMP_EQUAL_RULE (R211; log 2). -/
def execCmp (a b : Reg) (s : State) : Result := execCmpWith machineConfig a b s

/-- JEQ: `pc <- x[A]` if fl.E, else `pc <- pc + 2` (R212). -/
def execJeq (a : Reg) (s : State) : Result :=
  .next (if s.fl.e then s.jump (jumpTarget s a) else s.advance 2)

/-- JNE: `pc <- x[A]` if not fl.E, else `pc <- pc + 2` (R213). -/
def execJne (a : Reg) (s : State) : Result :=
  .next (if !s.fl.e then s.jump (jumpTarget s a) else s.advance 2)

/-- JMP: `pc <- x[A]` (R214). -/
def execJmp (a : Reg) (s : State) : Result :=
  .next (s.jump (jumpTarget s a))

end Sys2Proof.Machine
end

