-- ==== Sys2Proof/Machine/Halt.lean ====
section
/-! DEFINITION. HLT (46_halt.md). -/

namespace Sys2Proof.Machine

/-- HLT: `run <- Halted`; the pc keeps the HLT's own address (R230; log 12). -/
def execHlt (s : State) : Result := .next s.halt

end Sys2Proof.Machine
end

