-- ==== Sys2Proof/Machine/LoadPrint.lean ====
section
/-! DEFINITION. LDI and PRN (41_load_print.md). -/

namespace Sys2Proof.Machine

/-- LDI: `x[A] <- imm; pc <- pc + 3` (R150). -/
def execLdi (a : Reg) (imm : Byte) (s : State) : Result :=
  .next ((s.setReg a imm).advance 3)

/-- PRN: `emit(x[A]); pc <- pc + 2` (R152). The event is the byte (R153). -/
def execPrn (a : Reg) (s : State) : Result :=
  .next ((s.emit (s.reg a)).advance 2)

end Sys2Proof.Machine
end

