-- ==== Sys2Proof/Machine/MemoryStack.lean ====
section
/-! DEFINITION. ST, PUSH and POP (43_memory_stack.md).

ST and POP read the configuration, so each has a form over any configuration; the form `exec` calls is that
one at `machineConfig`. Every raise comes before the first write that survives it (00_scope.md R15): `settle`
gives a raising handler the state from before it. -/

namespace Sys2Proof.Machine

/-- ST under a configuration: `MemWrite(x[A], 1, x[B]); pc <- pc + ST_ADVANCE` (R180). -/
def execStWith (cfg : Config) (a b : Reg) (s : State) : Result :=
  settle s do
    let t ← memWrite s (storeAddress s a) (s.reg b)
    return t.advance (stAmount cfg.stAdvance)

/-- ST (R180) with the chosen ST_ADVANCE (log 3). -/
def execSt (a b : Reg) (s : State) : Result := execStWith machineConfig a b s

/-- PUSH: decrement x[7], write x[A], read after the decrement, at the new x[7]; `pc <- pc + 2` (R186). -/
def execPush (a : Reg) (s : State) : Result :=
  settle s do
    let t ← push s fun s1 => s1.reg a
    return t.advance 2

/-- POP under a configuration: read at x[7], write x[A], then the increment, which for A = 7 applies to the
popped value (R185). -/
def execPopWith (cfg : Config) (a : Reg) (s : State) : Result :=
  settle s do
    underflowCheck cfg.stackUnderflowCheck s
    let v ← stackTop s
    let newsp ← spIncrement (if a = SP then v else s.reg SP)
    return ((s.setReg a v).setReg SP newsp).advance 2

/-- POP (R185) with the chosen STACK_UNDERFLOW_CHECK (log 4). -/
def execPop (a : Reg) (s : State) : Result := execPopWith machineConfig a s

end Sys2Proof.Machine
end

