-- ==== Sys2Proof/Machine/Subroutine.lean ====
section
/-! DEFINITION. CALL and RET (44_subroutine.md). -/

namespace Sys2Proof.Machine

/-- CALL: push pc + 2, then `pc <- x[A]`, x[A] read after the push (R200, R201). -/
def execCall (a : Reg) (s : State) : Result :=
  settle s do
    let t ← push s fun _ => returnAddress s
    return t.jump (jumpTarget t a)

/-- RET under a configuration: `pc <- mem[x[7]]`, then x[7] is incremented (R202). -/
def execRetWith (cfg : Config) (s : State) : Result :=
  settle s do
    underflowCheck cfg.stackUnderflowCheck s
    let v ← stackTop s
    let newsp ← spIncrement (s.reg SP)
    return (s.jump v).setReg SP newsp

/-- RET (R202) with the chosen STACK_UNDERFLOW_CHECK (log 4). -/
def execRet (s : State) : Result := execRetWith machineConfig s

end Sys2Proof.Machine
end

