-- ==== Sys2Proof/Machine/Cycle.lean ====
section
/-! DEFINITION. The engine's cycle (40_cycle.md R120, R128), over the opcode map and the meanings it runs. -/

namespace Sys2Proof.Machine

/-- The fetch window: three range-checked reads at pc, pc+1 and pc+2, in that order, whatever the
instruction's length (R121, R122; log 8). -/
def fetch (s : State) : Except Raised Window := do
  let b0 ← memRead s s.pc.toNat
  let b1 ← memRead s (s.pc.toNat + 1)
  let b2 ← memRead s (s.pc.toNat + 2)
  return ⟨b0, b1, b2⟩

/-- One cycle of a running engine: fetch, dispatch, operand check, handler; the first error ends it
(R120, R128, 60_exceptions.md R248). -/
def runningCycle (opc : OpcodeMap) (meaning : Instr → State → Result) (s : State) : Result :=
  match fetch s with
  | .error e => .next (raise e s)
  | .ok w =>
    match decode opc w with
    | .error e => .next (raise (raisedOfDecode e) s)
    | .ok i => meaning i s

/-- The engine: a cycle while `run = Running`; no step when it is Halted or Faulted (R127; log 6). -/
def cycle (opc : OpcodeMap) (meaning : Instr → State → Result) (s : State) : Result :=
  match s.run with
  | .running => runningCycle opc meaning s
  | .halted => .fault .halted
  | .faulted e => .fault (.faulted e)

/-- The meanings under any configuration of 00_scope.md R7. Only ST, POP, RET and CMP read one. -/
def execWith (cfg : Config) (i : Instr) (s : State) : Result :=
  match i with
  | .st a b => execStWith cfg a b s
  | .pop a => execPopWith cfg a s
  | .ret => execRetWith cfg s
  | .cmp a b => execCmpWith cfg a b s
  | .ldi a imm => exec (.ldi a imm) s
  | .prn a => exec (.prn a) s
  | .add a b => exec (.add a b) s
  | .mul a b => exec (.mul a b) s
  | .push a => exec (.push a) s
  | .call a => exec (.call a) s
  | .jeq a => exec (.jeq a) s
  | .jne a => exec (.jne a) s
  | .jmp a => exec (.jmp a) s
  | .hlt => exec .hlt s

/-- `step(cfg, s)` of 40_cycle.md R128, for any configuration. -/
def stepWith (cfg : Config) (s : State) : Result := cycle cfg.opcode (execWith cfg) s

/-- The last address an instruction can run from (70_reset_and_hazards.md R278). -/
def lastInstructionAddress : Pc := 253

/-- A running state whose next fetch reads the window `w`: its three bytes stored at pc, or at 0 where no
instruction can run from pc (log 15). -/
def placeWindow (s : State) (w : Window) : State :=
  let pc : Pc := if s.pc ≤ lastInstructionAddress then s.pc else 0
  { s with mem := s.mem.writeAll pc.toNat [w.b0, w.b1, w.b2], pc := pc, run := .running }

end Sys2Proof.Machine
end

