-- ==== Sys2Proof/Machine/Step.lean ====
section
/-! DEFINITION. The step of the machine, with the spec's chosen configuration. -/

namespace Sys2Proof.Machine

/-- One step is one whole instruction (00_scope.md R9, 40_cycle.md R128). -/
def step (s : State) : Host.Outcome State Fault Refusal := cycle machineConfig.opcode exec s

/-- `s` with the instruction of that table word stored where the next step fetches it. -/
def State.withFetchWord (s : State) (nbits w : Nat) : State := placeWindow s (windowOfTableWord nbits w)

end Sys2Proof.Machine
end

