-- ==== Sys2Proof/Machine/HostInterface.lean ====
section
/-! DEFINITION. What the host can do and see (00_scope.md R10, 60_exceptions.md R256 to R259): load an image,
start, read the trace, read the status. Output is the `out` field. None of these is a step. -/

namespace Sys2Proof.Machine

/-- The loader's effect: mem[i] <- v_i for i < n and nothing else; an image of more than 256 bytes never
reaches the core (70_reset_and_hazards.md R273; log 18). -/
def State.loadImage (s : State) (image : List Byte) : Option State :=
  if imageWellFormed image then some { s with mem := s.mem.writeAll 0 image } else none

/-- A start: the reset state with the image loaded (R270, R272). The only way a run begins (R274; log 20). -/
def State.start (image : List Byte) : Option State := State.reset.loadImage image

/-- What the trace interface shows (60_exceptions.md R258): pc, the bytes at pc, pc+1, pc+2, the registers.
It shows neither the flags nor the output. -/
structure Trace where
  pc   : Pc
  b0   : Option Byte
  b1   : Option Byte
  b2   : Option Byte
  regs : Vector Byte 8
deriving DecidableEq, Repr

/-- A byte as the trace shows it. What it shows above 255 is outside the core: none here (log 16). -/
def State.traceByte (s : State) (a : Nat) : Option Byte := if a ≤ 255 then some (s.byteAt a) else none

/-- The trace read: it changes nothing (R258). -/
def State.trace (s : State) : Trace where
  pc   := s.pc
  b0   := s.traceByte s.pc.toNat
  b1   := s.traceByte (s.pc.toNat + 1)
  b2   := s.traceByte (s.pc.toNat + 2)
  regs := s.x

/-- The status interface: the run state, with the error record when faulted (R257). -/
def State.status (s : State) : RunState := s.run

end Sys2Proof.Machine
end

