-- ==== Sys2Proof/Safety.lean ====
section
/-! DEFINITION. The terms statements use: runs and their ends, what an error record may say, the invariant of
the machine, and what of a state the flags G and L can influence. -/

namespace Sys2Proof.Machine

/-! ### Runs -/

/-- A run ends at the first state whose run state is not Running (40_cycle.md R131). The observation of a
finished run is that whole state. -/
abbrev State.ended (s : State) : Prop := s.run ≠ .running

/-- The state after at most `n` steps; a state with no step stays. The bound is a host's, no end of the run (R132). -/
def State.after : Nat → State → State
  | 0, s => s
  | n + 1, s =>
    match step s with
    | .next t => State.after n t
    | _ => s

/-- A safe run of `n` steps: no error is raised in it. -/
def State.safeFor (s : State) (n : Nat) : Prop := ∀ k ≤ n, ∀ e, (State.after k s).run ≠ .faulted e

/-! ### Errors -/

/-- The state an error leaves: `s` with only the run state changed, to the record of that kind, code and info and
the pc of the faulting instruction (60_exceptions.md R242, R243). -/
def State.faultedWith (s : State) (kind : ErrorKind) (code : Nat) (info : Int) : State :=
  { s with run := .faulted ⟨kind, code, info, s.pc⟩ }

/-- An outcome raises `kind(info)`: the next state is Faulted with a record of that kind and info (R241). -/
def raises (r : Result) (kind : ErrorKind) (info : Int) : Prop :=
  ∃ t e, r = .next t ∧ t.run = .faulted e ∧ e.kind = kind ∧ e.info = info

/-- What an error record may say in a state, by its kind: the `info` column of 60_exceptions.md R240, the code
of its kind (R240), and the pc of the faulting instruction, which is the state's own (R242, R243). -/
def Err.legalIn (cfg : Config) (e : Err) (s : State) : Prop :=
  e.code = e.kind.code ∧ e.pc = s.pc ∧
  match e.kind with
  | .outOfRange => e.info = 256 ∨ e.info = -1
  | .invalidRegister => 8 ≤ e.info ∧ e.info ≤ 255
  | .invalidOpcode => 0 ≤ e.info ∧ e.info ≤ 255 ∧ ∀ m, ((cfg.opcode m).toNat : Int) ≠ e.info
  | .stackUnderflow => cfg.stackUnderflowCheck = true ∧ e.info = (s.reg SP).toNat ∧ (0xF4 : Int) ≤ e.info

/-! ### The invariant -/

/-- The invariant every step keeps: memory in its canonical form; pc at most 256 (10_state.md R36); an error
record says what it may. -/
structure Inv (cfg : Config) (s : State) : Prop where
  mem_wf    : s.mem.wf
  pc_le     : s.pc.toNat ≤ 256
  err_legal : ∀ e, s.run = .faulted e → e.legalIn cfg s

/-! ### The flags no instruction reads -/

/-- Two states that agree on everything but fl.G and fl.L. -/
structure AgreeButGL (s t : State) : Prop where
  mem : s.mem = t.mem
  x   : s.x = t.x
  e   : s.fl.e = t.fl.e
  pc  : s.pc = t.pc
  run : s.run = t.run
  out : s.out = t.out

/-- Two outcomes of a step that agree on everything but fl.G and fl.L. -/
def Result.agreeButGL : Result → Result → Prop
  | .next s, .next t => AgreeButGL s t
  | .fault e, .fault f => e = f
  | .refused q, .refused r => q = r
  | _, _ => False

/-! ### Windows and frames -/

/-- The three bytes at pc, with a pc from which a fetch succeeds (40_cycle.md R121, R122). -/
abbrev State.windowIs (s : State) (b0 b1 b2 : Byte) : Prop :=
  s.pc.toNat ≤ 253 ∧ s.byteAt s.pc.toNat = b0 ∧ s.byteAt (s.pc.toNat + 1) = b1 ∧ s.byteAt (s.pc.toNat + 2) = b2

/-- Every register but those named reads in `t` as it does in `s`. -/
def State.regsAsBefore (s t : State) (written : List Reg) : Prop := ∀ r, r ∉ written → t.reg r = s.reg r

/-- Every byte of memory but those at the named addresses reads in `t` as it does in `s`. -/
def State.memAsBefore (s t : State) (written : List Nat) : Prop := ∀ a, a ∉ written → t.byteAt a = s.byteAt a

/-- The value POP increments into x[7]: x[7], and for `POP R7` the popped byte (43_memory_stack.md R185; D24, log 11). -/
def State.poppedSp (s : State) (a : Reg) : Nat := if a = SP then (s.byteAt (s.reg SP).toNat).toNat else (s.reg SP).toNat

/-- `t` is `s` after a POP into `a` that raises nothing: its effect and its frame (43_memory_stack.md R185). -/
structure State.popsTo (s t : State) (a : Reg) : Prop where
  popped : a ≠ SP → t.reg a = s.byteAt (s.reg SP).toNat
  sp     : (t.reg SP).toNat = s.poppedSp a + 1
  pc     : t.pc.toNat = s.pc.toNat + 2
  regs   : s.regsAsBefore t [a, SP]
  mem    : s.memAsBefore t []
  fl     : t.fl = s.fl
  out    : t.out = s.out
  run    : t.run = s.run

/-- `t` is `s` after a RET that raises nothing: its effect and its frame (44_subroutine.md R202). -/
structure State.returnsTo (s t : State) : Prop where
  pc   : t.pc.toNat = (s.byteAt (s.reg SP).toNat).toNat
  sp   : (t.reg SP).toNat = (s.reg SP).toNat + 1
  regs : s.regsAsBefore t [SP]
  mem  : s.memAsBefore t []
  fl   : t.fl = s.fl
  out  : t.out = s.out
  run  : t.run = s.run

/-- The exceptions every instruction's rule lists for its fetch and its operands: OutOfRange(256) when pc ≥ 254,
and InvalidRegister for the first checked operand byte above 7 (40_cycle.md R122, R125; 30_encoding.md R96). -/
def fetchAndOperandExceptions (cfg : Config) (m : Mnemonic) (s : State) : Prop :=
  (254 ≤ s.pc.toNat → s.pc.toNat ≤ 256 → raises (stepWith cfg s) .outOfRange 256) ∧
  ∀ b1 b2 r, s.windowIs (cfg.opcode m) b1 b2 → (RawInstr.mk m b1 b2).firstBadRegister = some r →
    raises (stepWith cfg s) .invalidRegister r.toNat

end Sys2Proof.Machine
end

