-- ==== Sys2Proof/Certificates/Slice0/Obligations.lean ====
section
/-! DEFINITION. The statements about WWCA-CORE, from the numbered rules of spec/.

Statements about `stepWith cfg` and `execWith cfg` hold for every configuration of 00_scope.md R7 and rest on none
of its chosen values. Statements about `step` and `exec` are about the machine with the spec's choices (log 1 to 4).
`s.pc ≤ 253` is what a fetch that succeeded leaves true when a handler runs (40_cycle.md R122). -/

open Sys2Proof Sys2Proof.Machine

/-! ### Encoding -/

/-- The default opcode map satisfies R92 (a) to (c); 0x00 is illegal under every legal map; under the default, 242
bytes are illegal (30_encoding.md R92, R98). The default values are log 1. -/
def Obligations.DefaultOpcodesAreLegal : Prop :=
  defaultOpcode.wellFormed = true ∧
  (∀ opc : OpcodeMap, opc.wellFormed = true → ∀ b1 b2, decode opc ⟨0, b1, b2⟩ = .error (.invalidOpcode 0)) ∧
  ((List.range 256).filter fun n => (dispatch defaultOpcode (BitVec.ofNat 8 n)).isNone).length = 242

/-- Words of every format, written from the tables of 30_encoding.md and the examples of the instruction rules, decode
to the instructions they stand for; a register byte of 8 (R95, R96) and an opcode byte of no instruction (R98, R104) are
refused by name. Default opcodes: log 1. The JNE word, whose b2 is above 7 and unchecked, rests on the choice C3, D28 (log 9,
unsafe there). -/
def Obligations.WrittenWordsDecode : Prop :=
  decode defaultOpcode ⟨0x82, 0x02, 0xC8⟩ = .ok (.ldi 2 200) ∧
  decode defaultOpcode ⟨0x47, 0x00, 0xFF⟩ = .ok (.prn 0) ∧
  decode defaultOpcode ⟨0xA0, 0x00, 0x01⟩ = .ok (.add 0 1) ∧
  decode defaultOpcode ⟨0x84, 0x07, 0x01⟩ = .ok (.st 7 1) ∧
  decode defaultOpcode ⟨0x50, 0x01, 0x00⟩ = .ok (.call 1) ∧
  decode defaultOpcode ⟨0x11, 0xFF, 0xFF⟩ = .ok .ret ∧
  decode defaultOpcode ⟨0x56, 0x03, 0x47⟩ = .ok (.jne 3) ∧
  decode defaultOpcode ⟨0x01, 0xFF, 0xFF⟩ = .ok .hlt ∧
  decode defaultOpcode ⟨0xA7, 0x00, 0x08⟩ = .error (.invalidRegister 8) ∧
  decode defaultOpcode ⟨0xFF, 0x00, 0x00⟩ = .error (.invalidOpcode 0xFF)

/-- Decoding an encoded instruction, whatever bytes follow it, gives the instruction back: every instruction, every
operand, every legal opcode map (30_encoding.md R91, R93, R97). That a JEQ or JNE leaves b2 to what follows is the choice
C3, D28 (log 9). -/
def Obligations.DecodeOfEncode : Prop :=
  ∀ opc : OpcodeMap, opc.wellFormed = true → ∀ (i : Instr) (tail : List Byte),
    decode opc (Window.ofBytes (encode opc i ++ tail)) = .ok i

/-- The other direction: the bytes of a window that decodes are, up to the instruction's length, its encoding
(30_encoding.md R93, R94). -/
def Obligations.EncodeOfDecode : Prop :=
  ∀ (opc : OpcodeMap) (w : Window) (i : Instr), decode opc w = .ok i →
    encode opc i = [w.b0, w.b1, w.b2].take (encode opc i).length

/-- Every window has exactly one outcome: InvalidOpcode(b0), or InvalidRegister of the first failing operand in the
order of R96, or an instruction with the window's operand bytes (30_encoding.md R104). That JEQ and JNE have b1 checked only is D6, D28
(log 9). -/
def Obligations.EveryWindowHasItsOutcome : Prop :=
  ∀ (opc : OpcodeMap) (w : Window), opc.wellFormed = true →
    ((∀ m, opc m ≠ w.b0) → decode opc w = .error (.invalidOpcode w.b0)) ∧
    ∀ m, opc m = w.b0 →
      (∀ r, (RawInstr.mk m w.b1 w.b2).firstBadRegister = some r → decode opc w = .error (.invalidRegister r)) ∧
      ((RawInstr.mk m w.b1 w.b2).firstBadRegister = none →
        ∃ i, decode opc w = .ok i ∧ i.wellFormed = true ∧ i.raw.m = m ∧
          i.raw.checkedOperands = (RawInstr.mk m w.b1 w.b2).checkedOperands ∧ (m = .ldi → i.raw.b2 = w.b2))

/-- A window byte an instruction ignores changes nothing in what is decoded (30_encoding.md R97; the ignored bytes are
those of R94). That JEQ and JNE ignore b2 is the choice C3, D28 (log 9, unsafe there). -/
def Obligations.IgnoredBytesDoNotMatter : Prop :=
  ∀ (opc : OpcodeMap) (m : Mnemonic) (b1 b2 c1 c2 : Byte), opc.wellFormed = true →
    (m ∈ [Mnemonic.ret, .hlt] → decode opc ⟨opc m, b1, b2⟩ = decode opc ⟨opc m, c1, c2⟩) ∧
    (m ∈ [Mnemonic.prn, .push, .pop, .call, .jeq, .jne, .jmp] →
      decode opc ⟨opc m, b1, b2⟩ = decode opc ⟨opc m, b1, c2⟩)

/-! ### The cycle -/

/-- When the bytes at pc decode to an instruction, the step of a running machine is `exec` of that instruction at that
state; the step adds nothing around it (40_cycle.md R120, R126, R128). -/
def Obligations.StepRunsDecodedInstruction : Prop :=
  ∀ (s : State) (b0 b1 b2 : Byte) (i : Instr), s.run = .running → s.windowIs b0 b1 b2 →
    decode machineConfig.opcode ⟨b0, b1, b2⟩ = .ok i → step s = exec i s

/-- `step` and `exec` are the step and the meanings of the chosen configuration (00_scope.md R7), and only ST, POP, RET
and CMP depend on a configuration. -/
def Obligations.StepIsTheChosenConfiguration : Prop :=
  (∀ s, step s = stepWith machineConfig s) ∧ (∀ i s, exec i s = execWith machineConfig i s) ∧
  ∀ (cfg : Config) (i : Instr) (s : State), i.raw.m ∉ [Mnemonic.st, .pop, .ret, .cmp] → execWith cfg i s = exec i s

/-- R121: the fetch window is the three bytes at pc, pc + 1 and pc + 2, read for every instruction. -/
def Obligations.FetchReadsThreeBytes : Prop :=
  ∀ s : State, s.pc.toNat ≤ 253 →
    fetch s = .ok ⟨s.byteAt s.pc.toNat, s.byteAt (s.pc.toNat + 1), s.byteAt (s.pc.toNat + 2)⟩

/-- At pc 254, 255 or 256 the fetch raises OutOfRange(256), before any dispatch (40_cycle.md R122 with D5, log 8;
code 1 is D14, log 14; that only the run state changes, to this record, is D9, log 5). -/
def Obligations.FetchPastTheTopRaises : Prop :=
  ∀ (cfg : Config) (s : State), s.run = .running → 254 ≤ s.pc.toNat → s.pc.toNat ≤ 256 →
    stepWith cfg s = .next (s.faultedWith .outOfRange 1 256)

/-- An opcode byte of no instruction raises InvalidOpcode(b0) and the pc is not advanced; 0x00 always does
(40_cycle.md R123, R124 with D4, log 7; 60_exceptions.md R246). Code 3 is D14, log 14 (R240); that only the run state
changes, to this record, is D9, log 5 (R242, R243). -/
def Obligations.UnassignedOpcodeRaises : Prop :=
  ∀ (cfg : Config) (s : State) (b0 b1 b2 : Byte), s.run = .running → s.windowIs b0 b1 b2 →
    ((∀ m, cfg.opcode m ≠ b0) → stepWith cfg s = .next (s.faultedWith .invalidOpcode 3 b0.toNat)) ∧
    (cfg.opcode.wellFormed = true → b0 = 0 → stepWith cfg s = .next (s.faultedWith .invalidOpcode 3 0))

/-- A checked register operand above 7 raises InvalidRegister with the first such byte, whether or not the instruction
would use it, so an untaken jump raises it too (40_cycle.md R125, 60_exceptions.md R245; D6, log 9). Code 2 is D14, log 14
(R240); that only the run state changes, to this record, is D9, log 5 (R242, R243). -/
def Obligations.BadRegisterRaises : Prop :=
  ∀ (cfg : Config) (s : State) (m : Mnemonic) (b1 b2 r : Byte), cfg.opcode.wellFormed = true → s.run = .running →
    s.windowIs (cfg.opcode m) b1 b2 → (RawInstr.mk m b1 b2).firstBadRegister = some r →
    stepWith cfg s = .next (s.faultedWith .invalidRegister 2 r.toNat)

/-- R127: when the run state is Halted or Faulted the engine has no step, and the state does not change again. -/
def Obligations.EndedEngineHasNoStep : Prop :=
  ∀ (cfg : Config) (s : State), s.ended → (∀ t, stepWith cfg s ≠ .next t) ∧ ∀ n, State.after n s = s

/-- A running engine always has a next state: no instruction, window or operand stops it without one
(40_cycle.md R120, R128). -/
def Obligations.RunningEngineAlwaysSteps : Prop :=
  ∀ (cfg : Config) (s : State), s.run = .running → ∃ t, stepWith cfg s = .next t

/-- Errors are precise: a step that ends Faulted changed only the run state, and its record has the code of its kind and
the pc of the faulting instruction (60_exceptions.md R240 to R243; D9, log 5; codes D14, log 14). -/
def Obligations.ErrorsArePrecise : Prop :=
  ∀ (cfg : Config) (s t : State) (e : Err), stepWith cfg s = .next t → t.run = .faulted e →
    t = { s with run := .faulted e } ∧ e.pc = s.pc ∧ e.code = e.kind.code

/-- HLT is the only clean way to stop: a step ends Halted exactly when the opcode fetched is HLT's, and then only the run
state changes (46_halt.md R230, R231; the pc is D11, log 12). -/
def Obligations.OnlyHltEndsCleanly : Prop :=
  ∀ (cfg : Config) (s : State), cfg.opcode.wellFormed = true → s.run = .running →
    (∀ t, stepWith cfg s = .next t → t.run = .halted →
      s.pc.toNat ≤ 253 ∧ s.byteAt s.pc.toNat = cfg.opcode .hlt ∧ t = { s with run := .halted }) ∧
    (s.pc.toNat ≤ 253 → s.byteAt s.pc.toNat = cfg.opcode .hlt → stepWith cfg s = .next { s with run := .halted })

/-- The only errors a handler raises are the stack bounds and the underflow check; no data address is ever out of range
(20_memory.md R67, 60_exceptions.md R244 (b) and (c), R247; 43_memory_stack.md R183, R184, R187). The stack bounds are
D7, log 10; the underflow check, at x[7] of at least 0xF4 and with that x[7] as info, is D8, log 4; the bound of `POP R7`,
on the popped byte, is D24, log 11. -/
def Obligations.HandlersRaiseOnlyAtTheStack : Prop :=
  ∀ (cfg : Config) (i : Instr) (s t : State) (e : Err), s.run = .running → execWith cfg i s = .next t →
    t.run = .faulted e →
    (e.kind = .outOfRange ∧ e.info = -1 ∧ s.reg SP = 0 ∧ ∃ a, i = .push a ∨ i = .call a) ∨
    (e.kind = .outOfRange ∧ e.info = 256 ∧
      ((i = .ret ∧ s.reg SP = 255) ∨ (∃ a, i = .pop a ∧ a ≠ SP ∧ s.reg SP = 255) ∨
       (i = .pop SP ∧ s.byteAt (s.reg SP).toNat = 255))) ∨
    (e.kind = .stackUnderflow ∧ e.info = (s.reg SP).toNat ∧ cfg.stackUnderflowCheck = true ∧
      spInit.toNat ≤ (s.reg SP).toNat ∧ ∃ a, i = .ret ∨ i = .pop a)

/-! ### The invariant -/

/-- The invariant holds right after reset (its form of memory is the model's own, log 26). -/
def Obligations.InvariantAtReset : Prop := ∀ cfg, Inv cfg State.reset

/-- The invariant holds at the start of every image the loader accepts (70_reset_and_hazards.md R270, R273; its form of
memory is the model's own, log 26). -/
def Obligations.InvariantAtStart : Prop :=
  ∀ (cfg : Config) (image : List Byte) (s : State), State.start image = some s → Inv cfg s

/-- Every step keeps the invariant, for the chosen configuration and for every other: memory stays in its canonical form,
pc stays at most 256 (10_state.md R36), and an error record says what 60_exceptions.md R240 to R243 let it say
(its codes are D14, log 14; its content D9, log 5; the form of memory is log 26). -/
def Obligations.EveryStepKeepsInvariant : Prop :=
  (∀ s t, Inv machineConfig s → step s = .next t → Inv machineConfig t) ∧
  ∀ (cfg : Config) (s t : State), Inv cfg s → stepWith cfg s = .next t → Inv cfg t

/-! ### Whole-machine rules -/

/-- R47: the output is empty at start; it only grows, by one byte at its end, and only by a PRN, which emits the register
it names. -/
def Obligations.OutputGrowsOnlyByPrn : Prop :=
  State.reset.out = [] ∧ ∀ (cfg : Config) (s t : State), stepWith cfg s = .next t →
    t.out = s.out ∨
    ∃ a : Reg, s.byteAt s.pc.toNat = cfg.opcode .prn ∧ s.byteAt (s.pc.toNat + 1) = regByte a ∧
      t.out = s.out ++ [s.reg a]

/-- A byte of memory changes only by an ST, at the address its register holds, or by a PUSH or CALL, at the address below
the stack pointer (20_memory.md R62, R63; 43_memory_stack.md R180, R182). -/
def Obligations.MemoryChangesOnlyByStores : Prop :=
  ∀ (cfg : Config) (s t : State), s.mem.wf → stepWith cfg s = .next t → ∀ k : Nat, t.byteAt k ≠ s.byteAt k →
    (∃ a b : Reg, s.byteAt s.pc.toNat = cfg.opcode .st ∧ s.byteAt (s.pc.toNat + 1) = regByte a ∧
      s.byteAt (s.pc.toNat + 2) = regByte b ∧ storeAddress s a = k ∧ t.byteAt k = s.reg b) ∨
    ((s.byteAt s.pc.toNat = cfg.opcode .push ∨ s.byteAt s.pc.toNat = cfg.opcode .call) ∧
      k + 1 = (s.reg SP).toNat)

/-- R42 and R167: the flags persist until the next CMP, which writes all three, and no other instruction, ADD, MUL or a
jump, writes one. And, from 10_state.md R41, JEQ and JNE are the only instructions
that read a flag, and they read only fl.E: with the flags replaced, every instruction but CMP does the same and keeps the
replaced flags. The trace does not show the flags. -/
def Obligations.FlagsBelongToCmp : Prop :=
  (∀ (cfg : Config) (s t : State), stepWith cfg s = .next t → s.byteAt s.pc.toNat ≠ cfg.opcode .cmp → t.fl = s.fl) ∧
  (∀ (cfg : Config) (s : State) (a b : Reg), cfg.opcode.wellFormed = true → s.run = .running →
    s.windowIs (cfg.opcode .cmp) (regByte a) (regByte b) →
    ∃ t, stepWith cfg s = .next t ∧ t.fl = aluCompare cfg.cmpEqual (s.reg a) (s.reg b)) ∧
  (∀ (cfg : Config) (s t : State) (f : Flags), stepWith cfg s = .next t → s.byteAt s.pc.toNat ≠ cfg.opcode .cmp →
    (s.byteAt s.pc.toNat = cfg.opcode .jeq ∨ s.byteAt s.pc.toNat = cfg.opcode .jne → f.e = s.fl.e) →
    stepWith cfg (s.setFlags f) = .next (t.setFlags f)) ∧
  ∀ (s : State) (f : Flags), (s.setFlags f).trace = s.trace

/-- fl.G and fl.L cannot be observed: two states that differ in nothing else step to states that differ in nothing else,
under every configuration and for any number of steps, so the trace, the status and the output stay the same
(10_state.md R41). -/
def Obligations.GreaterAndLessAreUnobservable : Prop :=
  (∀ (cfg : Config) (s t : State), AgreeButGL s t → Result.agreeButGL (stepWith cfg s) (stepWith cfg t)) ∧
  ∀ (n : Nat) (s t : State), AgreeButGL s t →
    (State.after n s).trace = (State.after n t).trace ∧ (State.after n s).status = (State.after n t).status ∧
    (State.after n s).out = (State.after n t).out

/-- Fetch is coherent with stores: after an ST, the next fetch reads the stored byte wherever its window covers the
address stored to, and memory as it was elsewhere (20_memory.md R75, 70_reset_and_hazards.md R281). -/
def Obligations.StoreIsFetchedNext : Prop :=
  ∀ (cfg : Config) (s t : State) (a b : Reg), cfg.opcode.wellFormed = true → s.mem.wf → s.run = .running →
    s.windowIs (cfg.opcode .st) (regByte a) (regByte b) → stepWith cfg s = .next t → t.pc.toNat ≤ 253 →
    ∃ w, fetch t = .ok w ∧
      w.b0 = (if storeAddress s a = t.pc.toNat then s.reg b else s.byteAt t.pc.toNat) ∧
      w.b1 = (if storeAddress s a = t.pc.toNat + 1 then s.reg b else s.byteAt (t.pc.toNat + 1)) ∧
      w.b2 = (if storeAddress s a = t.pc.toNat + 2 then s.reg b else s.byteAt (t.pc.toNat + 2))

/-- A jump to its own address runs forever: its step answers the same running state, so every number of steps leaves that
state and no error is raised (45_compare_branch.md R214, 70_reset_and_hazards.md R284; default opcodes: log 1). -/
def Obligations.JumpToItselfRunsForever : Prop :=
  ∀ (s : State) (a : Reg) (b2 : Byte), s.run = .running →
    s.windowIs (machineConfig.opcode .jmp) (regByte a) b2 → (s.reg a).toNat = s.pc.toNat →
    step s = .next s ∧ ∀ n, State.after n s = s ∧ s.safeFor n

/-- Two memories in canonical form that read alike at every address are the same data. The canonical list is the model's own
representation, no rule of the spec (DESIGN CHOICE, log 26). -/
def Obligations.CanonicalMemoriesReadingAlikeAreEqual : Prop :=
  ∀ m n : Memory, m.wf → n.wf → (∀ a, m.read a = n.read a) → m = n

/-! ### Reset and the host's interface -/

/-- The state after reset: pc 0 (R39); R0 to R6 zero and R7 = 0xF4 (R34); flags false, running, no output, every byte of
memory zero. -/
def Obligations.ResetState : Prop :=
  State.reset.pc = 0 ∧ (∀ r : Reg, State.reset.reg r = if r = SP then 0xF4 else 0) ∧
  State.reset.fl = ⟨false, false, false⟩ ∧ State.reset.run = .running ∧ State.reset.out = [] ∧
  ∀ a, State.reset.byteAt a = 0

/-- The loader's effect: byte i of an image of at most 256 bytes at address i, zero elsewhere, and nothing but memory
differs from reset; a longer image never starts (70_reset_and_hazards.md R271, R273; D20, log 18). -/
def Obligations.LoaderPlacesTheImage : Prop :=
  (∀ (image : List Byte) (s : State), State.start image = some s →
    s = { State.reset with mem := s.mem } ∧
    ∀ i, s.byteAt i = if h : i < image.length then image[i] else 0) ∧
  ∀ image : List Byte, (∃ s, State.start image = some s) ↔ image.length ≤ 256

/-- The trace shows pc, the three bytes at pc, pc + 1 and pc + 2 and the eight registers (60_exceptions.md R258), from
every pc; at an address above 255 it shows no byte (the model's choice under D21, log 16). The output, the
flags and the run state are no part of it. -/
def Obligations.TraceShowsPcWindowAndRegisters : Prop :=
  (∀ (s : State) (b0 b1 b2 : Byte), s.windowIs b0 b1 b2 → s.trace = ⟨s.pc, some b0, some b1, some b2, s.x⟩) ∧
  (∀ s : State, s.pc.toNat = 254 → s.trace = ⟨s.pc, some (s.byteAt 254), some (s.byteAt 255), none, s.x⟩) ∧
  (∀ s : State, s.pc.toNat = 255 → s.trace = ⟨s.pc, some (s.byteAt 255), none, none, s.x⟩) ∧
  (∀ s : State, 255 < s.pc.toNat → s.trace = ⟨s.pc, none, none, none, s.x⟩) ∧
  ∀ (s : State) (f : Flags) (r : RunState) (o : List Byte), ({ s with fl := f, run := r, out := o } : State).trace = s.trace

/-- A word placed by `withFetchWord` is what the next step runs (the model's own operation, log 15). -/
def Obligations.PlacedWordRunsNext : Prop :=
  ∀ (s : State) (nbits w : Nat) (i : Instr), s.mem.wf → decodeTableWord nbits w = some i →
    (s.withFetchWord nbits w).run = .running ∧
    step (s.withFetchWord nbits w) = exec i (s.withFetchWord nbits w)

/-! ### Memory primitives and the ALU -/

/-- R61: MemRead returns the byte at an address of 0..255 and raises OutOfRange(a) at any other integer; it has no side
effect (it gives a byte and no state). -/
def Obligations.MemReadIsRangeChecked : Prop :=
  ∀ (s : State) (a : Int),
    (0 ≤ a ∧ a ≤ 255 → memRead s a = .ok (s.byteAt a.toNat)) ∧
    (¬(0 ≤ a ∧ a ≤ 255) → memRead s a = .error ⟨.outOfRange, a⟩)

/-- MemWrite sets the byte at an address of 0..255 and no other byte, and raises OutOfRange(a) at any other integer; nothing
else of the state changes (20_memory.md R62). That memory is in canonical form before and after is the model's own
representation, no rule of the spec (log 26). -/
def Obligations.MemWriteChangesOneByte : Prop :=
  ∀ (s : State) (a : Int) (v : Byte), s.mem.wf →
    (0 ≤ a ∧ a ≤ 255 → ∃ t, memWrite s a v = .ok t ∧ t.byteAt a.toNat = v ∧ s.memAsBefore t [a.toNat] ∧
      t = { s with mem := t.mem } ∧ t.mem.wf) ∧
    (¬(0 ≤ a ∧ a ≤ 255) → memWrite s a v = .error ⟨.outOfRange, a⟩)

/-- R161 and R162: the sum and the product of two unsigned bytes, mod 256. -/
def Obligations.AluWrapsAtEightBits : Prop :=
  ∀ a b : Byte, (aluAdd a b).toNat = (a.toNat + b.toNat) % 256 ∧ (aluMul a b).toNat = (a.toNat * b.toNat) % 256

/-- The outcome table of alu_compare under both equal rules, unsigned (42_arith.md R164; the two rules are D2, log 2). The
last three clauses are the spec's inference from that rule: under Literal exactly one of L and E is true and G implies E,
under Corrected exactly one of G, L and E is true. -/
def Obligations.AluCompareTable : Prop :=
  ∀ a b : Byte,
    (a.toNat < b.toNat → ∀ rule, aluCompare rule a b = ⟨false, true, false⟩) ∧
    (a.toNat = b.toNat → ∀ rule, aluCompare rule a b = ⟨false, false, true⟩) ∧
    (a.toNat > b.toNat → aluCompare .literal a b = ⟨true, false, true⟩ ∧ aluCompare .corrected a b = ⟨true, false, false⟩) ∧
    (aluCompare .literal a b).l = !(aluCompare .literal a b).e ∧
    ((aluCompare .literal a b).g = true → (aluCompare .literal a b).e = true) ∧
    [(aluCompare .corrected a b).g, (aluCompare .corrected a b).l, (aluCompare .corrected a b).e].count true = 1

/-! ### Whole rules, for every configuration -/

/-- R150, whole: LDI at any legal opcode map, its effect and frame, and its exceptions. -/
def Obligations.LdiFollowsItsRule : Prop :=
  ∀ (cfg : Config) (s : State), cfg.opcode.wellFormed = true → s.run = .running →
    fetchAndOperandExceptions cfg .ldi s ∧
    ∀ (a : Reg) (imm : Byte), s.windowIs (cfg.opcode .ldi) (regByte a) imm →
      ∃ t, stepWith cfg s = .next t ∧ t.reg a = imm ∧ s.regsAsBefore t [a] ∧ s.memAsBefore t [] ∧
        t.fl = s.fl ∧ t.out = s.out ∧ t.run = s.run ∧ t.pc.toNat = s.pc.toNat + 3

/-- PRN at any legal opcode map, its effect and frame, and its exceptions (41_load_print.md R152; that its unused b2 is
range-checked is D5, log 8). -/
def Obligations.PrnFollowsItsRule : Prop :=
  ∀ (cfg : Config) (s : State), cfg.opcode.wellFormed = true → s.run = .running →
    fetchAndOperandExceptions cfg .prn s ∧
    ∀ (a : Reg) (b2 : Byte), s.windowIs (cfg.opcode .prn) (regByte a) b2 →
      ∃ t, stepWith cfg s = .next t ∧ t.out = s.out ++ [s.reg a] ∧ s.regsAsBefore t [] ∧ s.memAsBefore t [] ∧
        t.fl = s.fl ∧ t.run = s.run ∧ t.pc.toNat = s.pc.toNat + 2

/-- R165, whole: ADD at any legal opcode map, its effect and frame, and its exceptions. -/
def Obligations.AddFollowsItsRule : Prop :=
  ∀ (cfg : Config) (s : State), cfg.opcode.wellFormed = true → s.run = .running →
    fetchAndOperandExceptions cfg .add s ∧
    ∀ a b : Reg, s.windowIs (cfg.opcode .add) (regByte a) (regByte b) →
      ∃ t, stepWith cfg s = .next t ∧ (t.reg a).toNat = ((s.reg a).toNat + (s.reg b).toNat) % 256 ∧
        s.regsAsBefore t [a] ∧ s.memAsBefore t [] ∧
        t.fl = s.fl ∧ t.out = s.out ∧ t.run = s.run ∧ t.pc.toNat = s.pc.toNat + 3

/-- R180, whole: ST at any legal opcode map and either ST_ADVANCE, its effect and frame, and its exceptions; the data write
cannot raise. -/
def Obligations.StFollowsItsRule : Prop :=
  ∀ (cfg : Config) (s : State), cfg.opcode.wellFormed = true → s.run = .running →
    fetchAndOperandExceptions cfg .st s ∧
    ∀ a b : Reg, s.mem.wf → s.windowIs (cfg.opcode .st) (regByte a) (regByte b) →
      ∃ t, stepWith cfg s = .next t ∧ t.byteAt (s.reg a).toNat = s.reg b ∧ s.memAsBefore t [(s.reg a).toNat] ∧
        s.regsAsBefore t [] ∧ t.fl = s.fl ∧ t.out = s.out ∧ t.run = s.run ∧
        (cfg.stAdvance = .two → t.pc.toNat = s.pc.toNat + 2) ∧ (cfg.stAdvance = .three → t.pc.toNat = s.pc.toNat + 3)

/-- R210, whole: CMP at any legal opcode map and either equal rule, its effect and frame, and its exceptions. -/
def Obligations.CmpFollowsItsRule : Prop :=
  ∀ (cfg : Config) (s : State), cfg.opcode.wellFormed = true → s.run = .running →
    fetchAndOperandExceptions cfg .cmp s ∧
    ∀ a b : Reg, s.windowIs (cfg.opcode .cmp) (regByte a) (regByte b) →
      ∃ t, stepWith cfg s = .next t ∧ t.fl = aluCompare cfg.cmpEqual (s.reg a) (s.reg b) ∧
        (t.fl.g = true ↔ (s.reg a).toNat > (s.reg b).toNat) ∧ (t.fl.l = true ↔ (s.reg a).toNat < (s.reg b).toNat) ∧
        (cfg.cmpEqual = .literal → (t.fl.e = true ↔ ¬ (s.reg a).toNat < (s.reg b).toNat)) ∧
        (cfg.cmpEqual = .corrected → (t.fl.e = true ↔ s.reg a = s.reg b)) ∧
        s.regsAsBefore t [] ∧ s.memAsBefore t [] ∧ t.out = s.out ∧ t.run = s.run ∧ t.pc.toNat = s.pc.toNat + 3

/-- JMP at any legal opcode map, its effect and frame, and its exceptions (45_compare_branch.md R214; that its unused b2 is
range-checked is D5, log 8). -/
def Obligations.JmpFollowsItsRule : Prop :=
  ∀ (cfg : Config) (s : State), cfg.opcode.wellFormed = true → s.run = .running →
    fetchAndOperandExceptions cfg .jmp s ∧
    ∀ (a : Reg) (b2 : Byte), s.windowIs (cfg.opcode .jmp) (regByte a) b2 →
      ∃ t, stepWith cfg s = .next t ∧ t.pc.toNat = (s.reg a).toNat ∧ s.regsAsBefore t [] ∧ s.memAsBefore t [] ∧
        t.fl = s.fl ∧ t.out = s.out ∧ t.run = s.run

/-! ### Each instruction completes, with its result and its frame -/

/-- LDI writes its immediate (41_load_print.md, LDI). -/
def Obligations.LdiCompletes : Prop :=
  ∀ (a : Reg) (imm : Byte) (s : State), s.pc.toNat ≤ 253 →
    ∃ t, exec (.ldi a imm) s = .next t ∧ t.reg a = imm ∧ s.regsAsBefore t [a] ∧ s.memAsBefore t [] ∧
      t.fl = s.fl ∧ t.out = s.out ∧ t.run = s.run ∧ t.pc.toNat = s.pc.toNat + 3

/-- PRN appends the byte its register holds to the output (41_load_print.md, PRN). -/
def Obligations.PrnCompletes : Prop :=
  ∀ (a : Reg) (s : State), s.pc.toNat ≤ 253 →
    ∃ t, exec (.prn a) s = .next t ∧ t.out = s.out ++ [s.reg a] ∧ s.regsAsBefore t [] ∧ s.memAsBefore t [] ∧
      t.fl = s.fl ∧ t.run = s.run ∧ t.pc.toNat = s.pc.toNat + 2

/-- ADD and MUL write the sum and the product mod 256, both operands read before the write, and no flag (42_arith.md, ADD
and MUL; the operands of MUL are the spec's inference in R166). -/
def Obligations.AddAndMulComplete : Prop :=
  ∀ (a b : Reg) (s : State), s.pc.toNat ≤ 253 →
    (∃ t, exec (.add a b) s = .next t ∧ (t.reg a).toNat = ((s.reg a).toNat + (s.reg b).toNat) % 256 ∧
      s.regsAsBefore t [a] ∧ s.memAsBefore t [] ∧
      t.fl = s.fl ∧ t.out = s.out ∧ t.run = s.run ∧ t.pc.toNat = s.pc.toNat + 3) ∧
    (∃ t, exec (.mul a b) s = .next t ∧ (t.reg a).toNat = ((s.reg a).toNat * (s.reg b).toNat) % 256 ∧
      s.regsAsBefore t [a] ∧ s.memAsBefore t [] ∧
      t.fl = s.fl ∧ t.out = s.out ∧ t.run = s.run ∧ t.pc.toNat = s.pc.toNat + 3)

/-- ST writes x[B] at the address `storeAddress` gives, x[A], and no other byte (43_memory_stack.md, ST); the advance of 2 is
the spec's choice D3 (log 3). -/
def Obligations.StCompletes : Prop :=
  ∀ (a b : Reg) (s : State), s.mem.wf → s.pc.toNat ≤ 253 →
    ∃ t, exec (.st a b) s = .next t ∧
      (∀ k : Nat, storeAddress s a = k → t.byteAt k = s.reg b ∧ s.memAsBefore t [k]) ∧
      storeAddress s a = (s.reg a).toNat ∧
      s.regsAsBefore t [] ∧ t.fl = s.fl ∧ t.out = s.out ∧ t.run = s.run ∧ t.pc.toNat = s.pc.toNat + 2

/-- PUSH decrements x[7] and stores x[A] at the new x[7], one byte; `PUSH R7` stores the decremented stack pointer
(43_memory_stack.md, PUSH; D24, log 11). -/
def Obligations.PushCompletes : Prop :=
  ∀ (a : Reg) (s : State), s.mem.wf → s.pc.toNat ≤ 253 → s.reg SP ≠ 0 →
    ∃ sp t, spDecrement (s.reg SP) = .ok sp ∧ sp.toNat + 1 = (s.reg SP).toNat ∧ exec (.push a) s = .next t ∧
      t.reg SP = sp ∧ t.byteAt sp.toNat = (if a = SP then sp else s.reg a) ∧
      s.regsAsBefore t [SP] ∧ s.memAsBefore t [sp.toNat] ∧
      t.fl = s.fl ∧ t.out = s.out ∧ t.run = s.run ∧ t.pc.toNat = s.pc.toNat + 2

/-- POP reads the byte at x[7] into x[A] and increments x[7]; for `POP R7` the increment applies to the popped byte
(43_memory_stack.md, POP; D24, log 11). `exec` has no underflow check (D8, log 4); the second part is POP under every
configuration, where the check is off or x[7] is below 0xF4 (R185, R187). -/
def Obligations.PopCompletes : Prop :=
  (∀ (a : Reg) (s : State), s.pc.toNat ≤ 253 → s.poppedSp a < 255 → ∃ t, exec (.pop a) s = .next t ∧ s.popsTo t a) ∧
  ∀ (cfg : Config) (a : Reg) (s : State), s.pc.toNat ≤ 253 → s.poppedSp a < 255 →
    (cfg.stackUnderflowCheck = false ∨ (s.reg SP).toNat < 0xF4) → ∃ t, execWith cfg (.pop a) s = .next t ∧ s.popsTo t a

/-- CALL pushes pc + 2 as one byte and jumps to x[A], read after the push: `CALL R7` jumps to the decremented stack pointer
(44_subroutine.md, CALL; R201 with D24, log 11). -/
def Obligations.CallCompletes : Prop :=
  ∀ (a : Reg) (s : State), s.mem.wf → s.pc.toNat ≤ 253 → s.reg SP ≠ 0 →
    ∃ sp t, spDecrement (s.reg SP) = .ok sp ∧ sp.toNat + 1 = (s.reg SP).toNat ∧ exec (.call a) s = .next t ∧
      t.reg SP = sp ∧ (t.byteAt sp.toNat).toNat = s.pc.toNat + 2 ∧
      t.pc.toNat = (if a = SP then sp else s.reg a).toNat ∧
      s.regsAsBefore t [SP] ∧ s.memAsBefore t [sp.toNat] ∧ t.fl = s.fl ∧ t.out = s.out ∧ t.run = s.run

/-- RET pops the byte at x[7] into pc and increments x[7] (44_subroutine.md, RET). `exec` has no underflow check (D8,
log 4); the second part is RET under every configuration, where the check is off or x[7] is below 0xF4 (R202, R187; such an
x[7] is below 255 already where the check is on). -/
def Obligations.RetCompletes : Prop :=
  (∀ s : State, (s.reg SP).toNat < 255 → ∃ t, exec .ret s = .next t ∧ s.returnsTo t) ∧
  ∀ (cfg : Config) (s : State), (s.reg SP).toNat < 255 →
    (cfg.stackUnderflowCheck = false ∨ (s.reg SP).toNat < 0xF4) → ∃ t, execWith cfg .ret s = .next t ∧ s.returnsTo t

/-- CMP writes all three flags from an unsigned comparison, and nothing else but pc; the equal flag under the spec's choice
Literal is "not less" (45_compare_branch.md, CMP; D2, log 2). -/
def Obligations.CmpCompletes : Prop :=
  ∀ (a b : Reg) (s : State), s.pc.toNat ≤ 253 →
    ∃ t, exec (.cmp a b) s = .next t ∧
      (t.fl.g = true ↔ (s.reg a).toNat > (s.reg b).toNat) ∧ (t.fl.l = true ↔ (s.reg a).toNat < (s.reg b).toNat) ∧
      (t.fl.e = true ↔ ¬ (s.reg a).toNat < (s.reg b).toNat) ∧
      s.regsAsBefore t [] ∧ s.memAsBefore t [] ∧ t.out = s.out ∧ t.run = s.run ∧ t.pc.toNat = s.pc.toNat + 3

/-- JEQ, JNE and JMP change only pc: to x[A] when taken, else by 2; no flag is cleared (45_compare_branch.md, JEQ, JNE and
JMP). -/
def Obligations.JumpsComplete : Prop :=
  ∀ (a : Reg) (s : State), s.pc.toNat ≤ 253 →
    (∃ t, exec (.jeq a) s = .next t ∧
      t.pc.toNat = (if s.fl.e = true then (s.reg a).toNat else s.pc.toNat + 2) ∧
      s.regsAsBefore t [] ∧ s.memAsBefore t [] ∧ t.fl = s.fl ∧ t.out = s.out ∧ t.run = s.run) ∧
    (∃ t, exec (.jne a) s = .next t ∧
      t.pc.toNat = (if s.fl.e = true then s.pc.toNat + 2 else (s.reg a).toNat) ∧
      s.regsAsBefore t [] ∧ s.memAsBefore t [] ∧ t.fl = s.fl ∧ t.out = s.out ∧ t.run = s.run) ∧
    (∃ t, exec (.jmp a) s = .next t ∧ t.pc.toNat = (s.reg a).toNat ∧
      s.regsAsBefore t [] ∧ s.memAsBefore t [] ∧ t.fl = s.fl ∧ t.out = s.out ∧ t.run = s.run)

/-- HLT makes the run state Halted and changes nothing else (46_halt.md, HLT; pc unchanged is D11, log 12). -/
def Obligations.HltCompletes : Prop :=
  ∀ s : State, ∃ t, exec .hlt s = .next t ∧ t.run = .halted ∧ t.pc = s.pc ∧
    s.regsAsBefore t [] ∧ s.memAsBefore t [] ∧ t.fl = s.fl ∧ t.out = s.out

/-- The stack bounds: PUSH and CALL at x[7] = 0 raise OutOfRange(-1); POP into another register and RET at x[7] = 255, and
`POP R7` of the byte 255, raise OutOfRange(256); nothing but the run state changes (43_memory_stack.md R183, R184; D7,
log 10). Code 1 is D14, log 14 (60_exceptions.md R240); the record, with nothing else changed, is D9, log 5 (R242, R243). -/
def Obligations.StackBoundsRaise : Prop :=
  ∀ (a : Reg) (s : State),
    (s.reg SP = 0 → exec (.push a) s = .next (s.faultedWith .outOfRange 1 (-1)) ∧
      exec (.call a) s = .next (s.faultedWith .outOfRange 1 (-1))) ∧
    (s.reg SP = 255 → exec .ret s = .next (s.faultedWith .outOfRange 1 256) ∧
      (a ≠ SP → exec (.pop a) s = .next (s.faultedWith .outOfRange 1 256))) ∧
    (s.byteAt (s.reg SP).toNat = 255 → exec (.pop SP) s = .next (s.faultedWith .outOfRange 1 256))

/-- The underflow check: StackUnderflow(x[7]) is raised exactly where the configuration has the check, the instruction is
POP or RET and x[7] ≥ 0xF4, and there before the stack bound (43_memory_stack.md R187, 60_exceptions.md R247, R248; D8,
log 4). Code 4 is D14, log 14 (R240); the record, with nothing else changed, is D9, log 5 (R242, R243). -/
def Obligations.UnderflowCheckIsConfigured : Prop :=
  (∀ (cfg : Config) (a : Reg) (s : State), cfg.stackUnderflowCheck = true → 0xF4 ≤ (s.reg SP).toNat →
    execWith cfg (.pop a) s = .next (s.faultedWith .stackUnderflow 4 (s.reg SP).toNat) ∧
    execWith cfg .ret s = .next (s.faultedWith .stackUnderflow 4 (s.reg SP).toNat)) ∧
  ∀ (cfg : Config) (s t : State) (e : Err), stepWith cfg s = .next t → t.run = .faulted e → e.kind = .stackUnderflow →
    cfg.stackUnderflowCheck = true ∧ 0xF4 ≤ (s.reg SP).toNat ∧ s.pc.toNat ≤ 253 ∧
    (s.byteAt s.pc.toNat = cfg.opcode .pop ∨ s.byteAt s.pc.toNat = cfg.opcode .ret) ∧
    t = s.faultedWith .stackUnderflow 4 (s.reg SP).toNat

/-! ### Rules about two instructions -/

/-- LDI followed by PRN of the same register emits the immediate (41_load_print.md R151, the spec's inference). -/
def Obligations.LdiThenPrnEmitsTheImmediate : Prop :=
  ∀ (cfg : Config) (s : State) (r : Reg) (v : Byte), cfg.opcode.wellFormed = true → s.run = .running →
    s.windowIs (cfg.opcode .ldi) (regByte r) v → s.pc.toNat + 3 ≤ 253 →
    s.byteAt (s.pc.toNat + 3) = cfg.opcode .prn → s.byteAt (s.pc.toNat + 4) = regByte r →
    ∃ t u, stepWith cfg s = .next t ∧ stepWith cfg t = .next u ∧ u.out = s.out ++ [v] ∧ u.run = .running

/-- Stack balance: a PUSH and then a POP of the same register, R7 included, leaves every register as before the PUSH, and the
pushed byte stays in memory (43_memory_stack.md R188, the spec's inference from R185 and R186). -/
def Obligations.PushThenPopRestores : Prop :=
  ∀ (r : Reg) (s : State), s.mem.wf → s.reg SP ≠ 0 →
    ∃ t u, exec (.push r) s = .next t ∧ exec (.pop r) t = .next u ∧ t.run = s.run ∧ u.run = s.run ∧
      s.regsAsBefore u [] ∧
      u.byteAt ((s.reg SP).toNat - 1) = (if r = SP then t.reg SP else s.reg r) ∧
      s.memAsBefore u [(s.reg SP).toNat - 1]

/-- Return-address fidelity: after a CALL at p that does not fault, a RET in any state with the stack pointer the CALL left
and the byte it pushed continues at p + 2 (44_subroutine.md R203, the spec's inference). -/
def Obligations.RetContinuesAfterCall : Prop :=
  ∀ (a : Reg) (s t u : State), s.mem.wf → s.pc.toNat ≤ 253 → s.reg SP ≠ 0 → exec (.call a) s = .next t →
    u.reg SP = t.reg SP → u.byteAt (t.reg SP).toNat = t.byteAt (t.reg SP).toNat →
    ∃ v, exec .ret u = .next v ∧ v.pc.toNat = s.pc.toNat + 2 ∧ v.reg SP = s.reg SP ∧ v.run = u.run

/-- What follows an ST with ST_ADVANCE = 2 under the default opcodes: unless the ST overwrote its own b2 byte, the next
instruction is HLT when B = 1 and raises InvalidOpcode(B) otherwise; if it did, the next opcode is x[B]
(43_memory_stack.md R181, the spec's inference; log 1, log 3). HLT leaving pc is D11, log 12 (46_halt.md R230); the fault
leaving pc is D4, log 7 (40_cycle.md R124), its code 3 D14, log 14, its record D9, log 5 (60_exceptions.md R240, R242, R243). -/
def Obligations.StIsFollowedByItsOperand : Prop :=
  ∀ (s t : State) (a b : Reg), s.mem.wf → s.run = .running → s.pc.toNat ≤ 251 →
    s.windowIs (defaultOpcode .st) (regByte a) (regByte b) → step s = .next t →
    t.run = .running ∧ t.pc.toNat = s.pc.toNat + 2 ∧
    ((s.reg a).toNat = s.pc.toNat + 2 → t.byteAt t.pc.toNat = s.reg b) ∧
    ((s.reg a).toNat ≠ s.pc.toNat + 2 →
      (b = 1 → step t = .next { t with run := .halted }) ∧
      (b ≠ 1 → step t = .next (t.faultedWith .invalidOpcode 3 b.val)))

/-- JEQ after CMP a,b jumps when a ≥ b under Literal and when a = b under Corrected, JNE in the other cases; the two rules
agree exactly when a ≤ b (45_compare_branch.md R211, the spec's inference). -/
def Obligations.JumpsAfterCmp : Prop :=
  (∀ (cfg : Config) (a b c : Reg) (s : State), s.pc.toNat ≤ 250 →
    ∃ t u v, execWith cfg (.cmp a b) s = .next t ∧ execWith cfg (.jeq c) t = .next u ∧
      execWith cfg (.jne c) t = .next v ∧
      (cfg.cmpEqual = .literal →
        u.pc.toNat = (if (s.reg b).toNat ≤ (s.reg a).toNat then (s.reg c).toNat else s.pc.toNat + 5) ∧
        v.pc.toNat = (if (s.reg a).toNat < (s.reg b).toNat then (s.reg c).toNat else s.pc.toNat + 5)) ∧
      (cfg.cmpEqual = .corrected →
        u.pc.toNat = (if s.reg a = s.reg b then (s.reg c).toNat else s.pc.toNat + 5) ∧
        v.pc.toNat = (if s.reg a = s.reg b then s.pc.toNat + 5 else (s.reg c).toNat))) ∧
  ∀ x y : Byte, aluCompare .literal x y = aluCompare .corrected x y ↔ x.toNat ≤ y.toNat
end

