-- ==== Sys2Proof/Laws/Decode.lean ====
section
/-! SUPPORT. The decoder's parts, each said once: the register check, dispatch, the formats. -/

namespace Sys2Proof

/-! ### The register check -/

@[simp] theorem regByte_toNat (r : Reg) : (regByte r).toNat = r.val := by
  simp only [regByte, BitVec.toNat_ofNat]; omega

@[simp] theorem checkReg_regByte (r : Reg) : checkReg (regByte r) = .ok r := by
  have : (regByte r).toNat < 8 := by rw [regByte_toNat]; exact r.isLt
  rw [checkReg, dif_pos this]
  simp

theorem checkReg_error {b : Byte} (h : 7 < b.toNat) : checkReg b = .error (.invalidRegister b) := by
  rw [checkReg, dif_neg (by omega)]

/-- Every operand byte names a register or is above 7 (30_encoding.md R99). -/
theorem byte_isReg_or_bad (b : Byte) : (∃ r, b = regByte r) ∨ 7 < b.toNat := by
  by_cases h : b.toNat < 8
  · exact .inl ⟨⟨b.toNat, h⟩, by apply BitVec.eq_of_toNat_eq; simp⟩
  · exact .inr (by omega)

/-! ### Dispatch -/

theorem Mnemonic.mem_all (m : Mnemonic) : m ∈ Mnemonic.all := by cases m <;> decide

theorem OpcodeMap.injective_of_wellFormed {opc : OpcodeMap} (h : opc.wellFormed = true) {m n : Mnemonic}
    (e : opc m = opc n) : m = n := by
  have := List.all_eq_true.1 h m m.mem_all
  simp only [Bool.and_eq_true] at this
  have := List.all_eq_true.1 this.2 n n.mem_all
  exact of_decide_eq_true this e

theorem OpcodeMap.ne_zero_of_wellFormed {opc : OpcodeMap} (h : opc.wellFormed = true) (m : Mnemonic) : opc m ≠ 0 := by
  have := List.all_eq_true.1 h m m.mem_all
  simp only [Bool.and_eq_true] at this
  exact of_decide_eq_true this.1

theorem dispatch_eq_some {opc : OpcodeMap} {b0 : Byte} {m : Mnemonic} (h : dispatch opc b0 = some m) : opc m = b0 := by
  simpa using List.find?_some h

theorem dispatch_eq_none_iff {opc : OpcodeMap} {b0 : Byte} : dispatch opc b0 = none ↔ ∀ m, opc m ≠ b0 := by
  simp only [dispatch, List.find?_eq_none, decide_eq_true_eq]
  exact ⟨fun h m => h m m.mem_all, fun h m _ => h m⟩

/-- An injective map dispatches each opcode to its own mnemonic (40_cycle.md R123). -/
theorem dispatch_opcode {opc : OpcodeMap} (h : opc.wellFormed = true) (m : Mnemonic) : dispatch opc (opc m) = some m := by
  cases e : dispatch opc (opc m) with
  | none => exact absurd rfl (dispatch_eq_none_iff.1 e m)
  | some n => rw [OpcodeMap.injective_of_wellFormed h (dispatch_eq_some e)]

theorem decode_opcode {opc : OpcodeMap} (h : opc.wellFormed = true) (m : Mnemonic) (b1 b2 : Byte) :
    decode opc ⟨opc m, b1, b2⟩ = decodeOperands m b1 b2 := by
  simp only [decode, dispatch_opcode h]

theorem decode_unassigned {opc : OpcodeMap} {b0 : Byte} (h : ∀ m, opc m ≠ b0) (b1 b2 : Byte) :
    decode opc ⟨b0, b1, b2⟩ = .error (.invalidOpcode b0) := by
  simp only [decode, dispatch_eq_none_iff.2 h]

/-! ### The formats -/

@[simp] theorem formatR_regByte (mk : Reg → Instr) (a : Reg) : formatR mk (regByte a) = .ok (mk a) := by
  simp [formatR, bind, Except.bind, pure, Except.pure]

theorem formatR_bad (mk : Reg → Instr) {b1 : Byte} (h : 7 < b1.toNat) :
    formatR mk b1 = .error (.invalidRegister b1) := by
  simp [formatR, bind, Except.bind, checkReg_error h]

@[simp] theorem formatRI_regByte (mk : Reg → Byte → Instr) (a : Reg) (imm : Byte) :
    formatRI mk (regByte a) imm = .ok (mk a imm) := by
  simp [formatRI, bind, Except.bind, pure, Except.pure]

theorem formatRI_bad (mk : Reg → Byte → Instr) {b1 : Byte} (h : 7 < b1.toNat) (imm : Byte) :
    formatRI mk b1 imm = .error (.invalidRegister b1) := by
  simp [formatRI, bind, Except.bind, checkReg_error h]

@[simp] theorem formatRR_regByte (mk : Reg → Reg → Instr) (a b : Reg) :
    formatRR mk (regByte a) (regByte b) = .ok (mk a b) := by
  simp [formatRR, bind, Except.bind, pure, Except.pure]

theorem formatRR_bad_first (mk : Reg → Reg → Instr) {b1 : Byte} (h : 7 < b1.toNat) (b2 : Byte) :
    formatRR mk b1 b2 = .error (.invalidRegister b1) := by
  simp [formatRR, bind, Except.bind, checkReg_error h]

theorem formatRR_bad_second (mk : Reg → Reg → Instr) (a : Reg) {b2 : Byte} (h : 7 < b2.toNat) :
    formatRR mk (regByte a) b2 = .error (.invalidRegister b2) := by
  simp [formatRR, bind, Except.bind, checkReg_error h]

/-! ### What a format that decodes was made of -/

theorem formatR_eq_ok {mk : Reg → Instr} {b1 : Byte} {i : Instr} (h : formatR mk b1 = .ok i) :
    ∃ a, b1 = regByte a ∧ i = mk a := by
  rcases byte_isReg_or_bad b1 with ⟨a, rfl⟩ | hb
  · rw [formatR_regByte] at h; injection h with h; exact ⟨a, rfl, h.symm⟩
  · rw [formatR_bad _ hb] at h; cases h

theorem formatRI_eq_ok {mk : Reg → Byte → Instr} {b1 b2 : Byte} {i : Instr} (h : formatRI mk b1 b2 = .ok i) :
    ∃ a, b1 = regByte a ∧ i = mk a b2 := by
  rcases byte_isReg_or_bad b1 with ⟨a, rfl⟩ | hb
  · rw [formatRI_regByte] at h; injection h with h; exact ⟨a, rfl, h.symm⟩
  · rw [formatRI_bad _ hb] at h; cases h

theorem formatRR_eq_ok {mk : Reg → Reg → Instr} {b1 b2 : Byte} {i : Instr} (h : formatRR mk b1 b2 = .ok i) :
    ∃ a b, b1 = regByte a ∧ b2 = regByte b ∧ i = mk a b := by
  rcases byte_isReg_or_bad b1 with ⟨a, rfl⟩ | hb
  · rcases byte_isReg_or_bad b2 with ⟨b, rfl⟩ | hb
    · rw [formatRR_regByte] at h; injection h with h; exact ⟨a, b, rfl, rfl, h.symm⟩
    · rw [formatRR_bad_second _ _ hb] at h; cases h
  · rw [formatRR_bad_first _ hb] at h; cases h

/-- A window that decodes was dispatched, and its operands were. -/
theorem decode_eq_ok {opc : OpcodeMap} {w : Window} {i : Instr} (h : decode opc w = .ok i) :
    ∃ m, opc m = w.b0 ∧ decodeOperands m w.b1 w.b2 = .ok i := by
  unfold decode at h
  split at h
  · cases h
  · rename_i m hm; exact ⟨m, dispatch_eq_some hm, h⟩

end Sys2Proof
end

