-- ==== Sys2Proof/Laws/State.lean ====
section
/-! SUPPORT. What each named update of the state leaves in each field, one lemma per field per update, so that
no later proof unfolds a record update; and reads after writes. -/

namespace Sys2Proof.Machine

/-! ### `setReg` -/

@[simp] theorem State.setReg_mem (s : State) (r : Reg) (v : Byte) : (s.setReg r v).mem = s.mem := rfl
@[simp] theorem State.setReg_x (s : State) (r : Reg) (v : Byte) : (s.setReg r v).x = s.x.set r.val v := rfl
@[simp] theorem State.setReg_fl (s : State) (r : Reg) (v : Byte) : (s.setReg r v).fl = s.fl := rfl
@[simp] theorem State.setReg_pc (s : State) (r : Reg) (v : Byte) : (s.setReg r v).pc = s.pc := rfl
@[simp] theorem State.setReg_run (s : State) (r : Reg) (v : Byte) : (s.setReg r v).run = s.run := rfl
@[simp] theorem State.setReg_out (s : State) (r : Reg) (v : Byte) : (s.setReg r v).out = s.out := rfl

/-! ### `jump` -/

@[simp] theorem State.jump_mem (s : State) (t : Byte) : (s.jump t).mem = s.mem := rfl
@[simp] theorem State.jump_x (s : State) (t : Byte) : (s.jump t).x = s.x := rfl
@[simp] theorem State.jump_fl (s : State) (t : Byte) : (s.jump t).fl = s.fl := rfl
@[simp] theorem State.jump_pc (s : State) (t : Byte) : (s.jump t).pc = t.setWidth 9 := rfl
@[simp] theorem State.jump_run (s : State) (t : Byte) : (s.jump t).run = s.run := rfl
@[simp] theorem State.jump_out (s : State) (t : Byte) : (s.jump t).out = s.out := rfl

/-! ### `advance` -/

@[simp] theorem State.advance_mem (s : State) (n : Nat) : (s.advance n).mem = s.mem := rfl
@[simp] theorem State.advance_x (s : State) (n : Nat) : (s.advance n).x = s.x := rfl
@[simp] theorem State.advance_fl (s : State) (n : Nat) : (s.advance n).fl = s.fl := rfl
@[simp] theorem State.advance_pc (s : State) (n : Nat) : (s.advance n).pc = BitVec.ofNat 9 (s.pc.toNat + n) := rfl
@[simp] theorem State.advance_run (s : State) (n : Nat) : (s.advance n).run = s.run := rfl
@[simp] theorem State.advance_out (s : State) (n : Nat) : (s.advance n).out = s.out := rfl

/-! ### `setFlags` -/

@[simp] theorem State.setFlags_mem (s : State) (f : Flags) : (s.setFlags f).mem = s.mem := rfl
@[simp] theorem State.setFlags_x (s : State) (f : Flags) : (s.setFlags f).x = s.x := rfl
@[simp] theorem State.setFlags_fl (s : State) (f : Flags) : (s.setFlags f).fl = f := rfl
@[simp] theorem State.setFlags_pc (s : State) (f : Flags) : (s.setFlags f).pc = s.pc := rfl
@[simp] theorem State.setFlags_run (s : State) (f : Flags) : (s.setFlags f).run = s.run := rfl
@[simp] theorem State.setFlags_out (s : State) (f : Flags) : (s.setFlags f).out = s.out := rfl

/-! ### `emit` -/

@[simp] theorem State.emit_mem (s : State) (v : Byte) : (s.emit v).mem = s.mem := rfl
@[simp] theorem State.emit_x (s : State) (v : Byte) : (s.emit v).x = s.x := rfl
@[simp] theorem State.emit_fl (s : State) (v : Byte) : (s.emit v).fl = s.fl := rfl
@[simp] theorem State.emit_pc (s : State) (v : Byte) : (s.emit v).pc = s.pc := rfl
@[simp] theorem State.emit_run (s : State) (v : Byte) : (s.emit v).run = s.run := rfl
@[simp] theorem State.emit_out (s : State) (v : Byte) : (s.emit v).out = s.out ++ [v] := rfl

/-! ### `halt` -/

@[simp] theorem State.halt_mem (s : State) : s.halt.mem = s.mem := rfl
@[simp] theorem State.halt_x (s : State) : s.halt.x = s.x := rfl
@[simp] theorem State.halt_fl (s : State) : s.halt.fl = s.fl := rfl
@[simp] theorem State.halt_pc (s : State) : s.halt.pc = s.pc := rfl
@[simp] theorem State.halt_run (s : State) : s.halt.run = .halted := rfl
@[simp] theorem State.halt_out (s : State) : s.halt.out = s.out := rfl

/-! ### `setByte` -/

@[simp] theorem State.setByte_mem (s : State) (a : Nat) (v : Byte) : (s.setByte a v).mem = s.mem.write a v := rfl
@[simp] theorem State.setByte_x (s : State) (a : Nat) (v : Byte) : (s.setByte a v).x = s.x := rfl
@[simp] theorem State.setByte_fl (s : State) (a : Nat) (v : Byte) : (s.setByte a v).fl = s.fl := rfl
@[simp] theorem State.setByte_pc (s : State) (a : Nat) (v : Byte) : (s.setByte a v).pc = s.pc := rfl
@[simp] theorem State.setByte_run (s : State) (a : Nat) (v : Byte) : (s.setByte a v).run = s.run := rfl
@[simp] theorem State.setByte_out (s : State) (a : Nat) (v : Byte) : (s.setByte a v).out = s.out := rfl

/-! ### `raise` -/

@[simp] theorem raise_mem (e : Raised) (s : State) : (raise e s).mem = s.mem := rfl
@[simp] theorem raise_x (e : Raised) (s : State) : (raise e s).x = s.x := rfl
@[simp] theorem raise_fl (e : Raised) (s : State) : (raise e s).fl = s.fl := rfl
@[simp] theorem raise_pc (e : Raised) (s : State) : (raise e s).pc = s.pc := rfl
@[simp] theorem raise_run (e : Raised) (s : State) : (raise e s).run = .faulted ⟨e.kind, e.kind.code, e.info, s.pc⟩ := rfl
@[simp] theorem raise_out (e : Raised) (s : State) : (raise e s).out = s.out := rfl

/-! ### Reads after writes -/

@[simp] theorem State.reg_setReg_self (s : State) (r : Reg) (v : Byte) : (s.setReg r v).reg r = v := by
  simp [State.reg]

theorem State.reg_setReg_other (s : State) {r q : Reg} (v : Byte) (h : q ≠ r) :
    (s.setReg r v).reg q = s.reg q := by
  have : r.val ≠ q.val := fun e => h (Fin.ext e.symm)
  simp [State.reg, this]

/-- One read lemma for both cases. -/
theorem State.reg_setReg (s : State) (r q : Reg) (v : Byte) :
    (s.setReg r v).reg q = if q = r then v else s.reg q := by
  split
  · subst q; simp
  · exact s.reg_setReg_other v ‹_›

@[simp] theorem State.byteAt_setReg (s : State) (r : Reg) (v : Byte) (k : Nat) : (s.setReg r v).byteAt k = s.byteAt k := rfl
@[simp] theorem State.reg_jump (s : State) (t : Byte) (q : Reg) : (s.jump t).reg q = s.reg q := rfl
@[simp] theorem State.byteAt_jump (s : State) (t : Byte) (k : Nat) : (s.jump t).byteAt k = s.byteAt k := rfl
@[simp] theorem State.reg_advance (s : State) (n : Nat) (q : Reg) : (s.advance n).reg q = s.reg q := rfl
@[simp] theorem State.byteAt_advance (s : State) (n : Nat) (k : Nat) : (s.advance n).byteAt k = s.byteAt k := rfl
@[simp] theorem State.reg_setFlags (s : State) (f : Flags) (q : Reg) : (s.setFlags f).reg q = s.reg q := rfl
@[simp] theorem State.byteAt_setFlags (s : State) (f : Flags) (k : Nat) : (s.setFlags f).byteAt k = s.byteAt k := rfl
@[simp] theorem State.reg_emit (s : State) (v : Byte) (q : Reg) : (s.emit v).reg q = s.reg q := rfl
@[simp] theorem State.byteAt_emit (s : State) (v : Byte) (k : Nat) : (s.emit v).byteAt k = s.byteAt k := rfl
@[simp] theorem State.reg_halt (s : State) (q : Reg) : s.halt.reg q = s.reg q := rfl
@[simp] theorem State.byteAt_halt (s : State) (k : Nat) : s.halt.byteAt k = s.byteAt k := rfl
@[simp] theorem State.reg_setByte (s : State) (a : Nat) (v : Byte) (q : Reg) : (s.setByte a v).reg q = s.reg q := rfl
@[simp] theorem reg_raise (e : Raised) (s : State) (q : Reg) : (raise e s).reg q = s.reg q := rfl
@[simp] theorem byteAt_raise (e : Raised) (s : State) (k : Nat) : (raise e s).byteAt k = s.byteAt k := rfl

/-! ### The pc as an integer -/

@[simp] theorem State.jump_pc_toNat (s : State) (t : Byte) : (s.jump t).pc.toNat = t.toNat := by
  simp only [State.jump_pc, BitVec.toNat_setWidth]
  omega

/-- After a fetch the pc is at most 253, and an advance of up to 3 is exact (10_state.md R36, R38). -/
theorem State.advance_pc_toNat (s : State) {n : Nat} (h : s.pc.toNat + n < 512) :
    (s.advance n).pc.toNat = s.pc.toNat + n := by
  simp only [State.advance_pc, BitVec.toNat_ofNat]
  omega

end Sys2Proof.Machine
end

