-- ==== Sys2Proof/Laws/Memory.lean ====
section
/-! SUPPORT. Memory: a read after a write, the canonical form, and that the form makes equal memories equal data. -/

namespace Sys2Proof.Machine

theorem Memory.read_eq_unlisted_of_lt {m : Memory} {a : Nat} (h : ∀ c ∈ m, a < c.1) :
    m.read a = Memory.unlisted := by
  induction m with
  | nil => rfl
  | cons c m ih =>
    obtain ⟨k, w⟩ := c
    have hk : a < k := h (k, w) (by simp)
    rw [Memory.read, if_neg (by omega)]
    exact ih fun d hd => h d (by simp [hd])

theorem Memory.wf_tail {c : Host.Cell} {m : Memory} (h : Memory.wf (c :: m)) : Memory.wf m :=
  ⟨(List.pairwise_cons.1 h.1).2, fun d hd => h.2 d (by simp [hd])⟩

theorem Memory.wf_head_lt {c : Host.Cell} {m : Memory} (h : Memory.wf (c :: m)) : ∀ d ∈ m, c.1 < d.1 :=
  (List.pairwise_cons.1 h.1).1

theorem Memory.wf_cons {c : Host.Cell} {m : Memory} (hm : Memory.wf m) (hc : c.1 < 256 ∧ c.2 ≠ Memory.unlisted)
    (hlt : ∀ d ∈ m, c.1 < d.1) : Memory.wf (c :: m) :=
  ⟨List.pairwise_cons.2 ⟨hlt, hm.1⟩, by simpa using ⟨hc, fun a b h => hm.2 (a, b) h⟩⟩

/-! ### Reads after writes -/

theorem Memory.read_putFirst (a k : Nat) (v : Byte) (m : Memory) (h : ∀ c ∈ m, a < c.1) :
    (Memory.putFirst a v m).read k = if k = a then v else m.read k := by
  unfold Memory.putFirst
  by_cases hv : v = Memory.unlisted
  · rw [if_pos hv]
    split
    · subst k; rw [hv]; exact Memory.read_eq_unlisted_of_lt h
    · rfl
  · rw [if_neg hv, Memory.read]

/-- A read after a write: the byte written there, and every other byte as before (20_memory.md R62, R64). -/
theorem Memory.read_write {m : Memory} (hm : m.wf) (a k : Nat) (v : Byte) :
    (m.write a v).read k = if k = a then v else m.read k := by
  induction m with
  | nil => exact Memory.read_putFirst a k v [] (by simp)
  | cons c m ih =>
    obtain ⟨j, w⟩ := c
    have hlt := Memory.wf_head_lt hm
    simp only [Memory.write]
    split
    · refine Memory.read_putFirst a k v _ ?_
      intro d hd
      rcases List.mem_cons.1 hd with rfl | hd
      · assumption
      · have := hlt d hd; simp at this; omega
    · split
      · subst a
        rw [Memory.read_putFirst j k v m hlt]
        by_cases hk : k = j <;> simp [Memory.read, hk]
      · rename_i h1 h2
        rw [Memory.read, ih (Memory.wf_tail hm), Memory.read]
        by_cases hk : k = j
        · subst k; simp [Ne.symm h2]
        · simp [hk]

/-- The frame of a write needs no canonical form. -/
theorem Memory.read_write_other (m : Memory) {a k : Nat} (v : Byte) (h : k ≠ a) :
    (m.write a v).read k = m.read k := by
  induction m with
  | nil => simp [Memory.write, Memory.putFirst]; split <;> simp [Memory.read, h]
  | cons c m ih =>
    obtain ⟨j, w⟩ := c
    simp only [Memory.write, Memory.putFirst]
    split
    · split <;> simp [Memory.read, h]
    · split
      · subst a; split <;> simp [Memory.read, h]
      · simp [Memory.read, ih]

@[simp] theorem State.byteAt_setByte_other (s : State) {a k : Nat} (v : Byte) (h : k ≠ a) :
    (s.setByte a v).byteAt k = s.byteAt k := Memory.read_write_other s.mem v h

theorem State.byteAt_setByte {s : State} (hm : s.mem.wf) (a k : Nat) (v : Byte) :
    (s.setByte a v).byteAt k = if k = a then v else s.byteAt k := Memory.read_write hm a k v

/-! ### The canonical form -/

theorem Memory.wf_nil : Memory.wf [] := by decide

theorem Memory.mem_write {m : Memory} {a : Nat} {v : Byte} {c : Host.Cell} (h : c ∈ m.write a v) :
    c = (a, v) ∧ v ≠ Memory.unlisted ∨ c ∈ m := by
  induction m with
  | nil =>
    simp only [Memory.write, Memory.putFirst] at h
    split at h <;> simp_all
  | cons d m ih =>
    obtain ⟨j, w⟩ := d
    simp only [Memory.write, Memory.putFirst] at h
    split at h
    · split at h <;> simp_all
    · split at h
      · split at h
        · simp_all
        · simp_all; tauto
      · rcases List.mem_cons.1 h with rfl | h
        · simp
        · rcases ih h with h | h
          · exact .inl h
          · exact .inr (by simp [h])

/-- A write below 256 keeps the canonical form. -/
theorem Memory.wf_write {m : Memory} (hm : m.wf) {a : Nat} (ha : a < 256) (v : Byte) : (m.write a v).wf := by
  have put : ∀ {m : Memory}, m.wf → (∀ c ∈ m, a < c.1) → (Memory.putFirst a v m).wf := by
    intro m hm hlt
    unfold Memory.putFirst
    split
    · exact hm
    · exact Memory.wf_cons hm ⟨ha, ‹_›⟩ hlt
  induction m with
  | nil => exact put hm (by simp)
  | cons c m ih =>
    obtain ⟨j, w⟩ := c
    have hlt := Memory.wf_head_lt hm
    simp only [Memory.write]
    split
    · refine put hm ?_
      intro d hd
      rcases List.mem_cons.1 hd with rfl | hd
      · assumption
      · have := hlt d hd; simp at this; omega
    · split
      · subst a; exact put (Memory.wf_tail hm) hlt
      · refine Memory.wf_cons (ih (Memory.wf_tail hm)) (hm.2 (j, w) (by simp)) ?_
        intro d hd
        rcases Memory.mem_write hd with ⟨rfl, -⟩ | hd
        · simp; omega
        · exact hlt d hd

theorem Memory.wf_writeAll {m : Memory} (hm : m.wf) {a : Nat} (vs : List Byte) (h : a + vs.length ≤ 256) :
    (m.writeAll a vs).wf := by
  induction vs generalizing m a with
  | nil => exact hm
  | cons v vs ih =>
    simp only [List.length_cons] at h
    exact ih (Memory.wf_write hm (by omega) v) (by omega)

/-- What a byte reads as after consecutive bytes are written from `a` on. -/
theorem Memory.read_writeAll {m : Memory} (hm : m.wf) {a : Nat} (vs : List Byte) (h : a + vs.length ≤ 256) (k : Nat) :
    (m.writeAll a vs).read k = if a ≤ k ∧ k < a + vs.length then vs.getD (k - a) 0 else m.read k := by
  induction vs generalizing m a with
  | nil => rw [if_neg (by simp)]; rfl
  | cons v vs ih =>
    simp only [List.length_cons] at h ⊢
    rw [Memory.writeAll, ih (Memory.wf_write hm (by omega) v) (by omega), Memory.read_write hm]
    by_cases h1 : k = a
    · subst k; simp
    · by_cases h2 : a + 1 ≤ k ∧ k < a + 1 + vs.length
      · rw [if_pos h2, if_pos ⟨by omega, by omega⟩]
        have : k - a = (k - (a + 1)) + 1 := by omega
        rw [this, List.getD_cons_succ]
      · rw [if_neg h2, if_neg h1, if_neg (by omega)]

end Sys2Proof.Machine
end

