-- ==== Sys2Proof/Laws/Ops.lean ====
section
/-! SUPPORT. Each shared operation and each meaning that can raise, in closed form: everything it can answer,
said once. Later proofs rewrite with these and never unfold the operation. -/

namespace Sys2Proof.Machine

@[simp] theorem trunc8_toNat (v : Nat) : (trunc8 v).toNat = v % 256 := by simp [trunc8]

@[simp] theorem settle_ok (s t : State) : settle s (.ok t) = .next t := rfl
@[simp] theorem settle_error (s : State) (e : Raised) : settle s (.error e) = .next (raise e s) := rfl

/-- A meaning built on `settle` always answers a next state. -/
theorem settle_next (s : State) (r : Except Raised State) : ∃ t, settle s r = .next t := by
  cases r <;> simp

/-! ### Memory at a byte address: a data access cannot be out of range (20_memory.md R67) -/

theorem inRange_byte (b : Byte) : inRange (b.toNat : Int) := by
  have := b.isLt
  exact ⟨by omega, by omega⟩

@[simp] theorem memRead_byte (s : State) (b : Byte) : memRead s b.toNat = .ok (s.byteAt b.toNat) := by
  simp only [memRead, if_pos (inRange_byte b), Int.toNat_natCast, State.byteAt]

@[simp] theorem memWrite_byte (s : State) (b v : Byte) : memWrite s b.toNat v = .ok (s.setByte b.toNat v) := by
  simp only [memWrite, if_pos (inRange_byte b), Int.toNat_natCast]

theorem memRead_nat (s : State) (a : Nat) :
    memRead s a = if a ≤ 255 then .ok (s.byteAt a) else .error ⟨.outOfRange, a⟩ := by
  by_cases h : a ≤ 255
  · simp only [memRead, if_pos h, if_pos (show inRange (a : Int) from ⟨by omega, by omega⟩), Int.toNat_natCast,
      State.byteAt]
  · simp only [memRead, if_neg h, if_neg (show ¬ inRange (a : Int) from fun hr => h (by have := hr.2; omega))]

/-! ### The stack pointer -/

theorem spDecrement_zero : spDecrement 0 = .error ⟨.outOfRange, -1⟩ := rfl

theorem spDecrement_of_ne {v : Byte} (h : v ≠ 0) : spDecrement v = .ok (trunc8 (v.toNat - 1)) := if_neg h

theorem spIncrement_of_lt {v : Byte} (h : v.toNat < 255) : spIncrement v = .ok (trunc8 (v.toNat + 1)) :=
  if_neg (by omega)

theorem spIncrement_top {v : Byte} (h : ¬ v.toNat < 255) : spIncrement v = .error ⟨.outOfRange, 256⟩ :=
  if_pos (by omega)

@[simp] theorem underflowCheck_off (s : State) : underflowCheck false s = .ok () := by simp [underflowCheck]

@[simp] theorem stackTop_eq (s : State) : stackTop s = .ok (s.byteAt (s.reg SP).toNat) := memRead_byte s _

theorem push_at_zero {s : State} (f : State → Byte) (h : s.reg SP = 0) : push s f = .error ⟨.outOfRange, -1⟩ := by
  simp only [push, h, spDecrement_zero, bind, Except.bind]

theorem push_of_ne {s : State} (f : State → Byte) (h : s.reg SP ≠ 0) :
    push s f = .ok ((s.setReg SP (trunc8 ((s.reg SP).toNat - 1))).setByte ((s.reg SP).toNat - 1)
      (f (s.setReg SP (trunc8 ((s.reg SP).toNat - 1))))) := by
  have h1 := (s.reg SP).isLt
  have h2 : (trunc8 ((s.reg SP).toNat - 1)).toNat = (s.reg SP).toNat - 1 := by rw [trunc8_toNat]; omega
  simp only [push, spDecrement_of_ne h, bind, Except.bind, State.reg_setReg_self, memWrite_byte]
  rw [h2]

/-! ### The meanings that read memory or may raise, in closed form -/

theorem execStWith_eq (cfg : Config) (a b : Reg) (s : State) :
    execStWith cfg a b s = .next ((s.setByte (s.reg a).toNat (s.reg b)).advance (stAmount cfg.stAdvance)) := by
  simp [execStWith, storeAddress, bind, Except.bind, pure, Except.pure]

theorem execPush_eq (a : Reg) (s : State) :
    execPush a s = .next (if s.reg SP = 0 then raise ⟨.outOfRange, -1⟩ s else
      ((s.setReg SP (trunc8 ((s.reg SP).toNat - 1))).setByte ((s.reg SP).toNat - 1)
        ((s.setReg SP (trunc8 ((s.reg SP).toNat - 1))).reg a)).advance 2) := by
  by_cases h : s.reg SP = 0
  · rw [execPush, push_at_zero _ h, if_pos h]; rfl
  · rw [execPush, push_of_ne _ h, if_neg h]; rfl

theorem execCall_eq (a : Reg) (s : State) :
    execCall a s = .next (if s.reg SP = 0 then raise ⟨.outOfRange, -1⟩ s else
      ((s.setReg SP (trunc8 ((s.reg SP).toNat - 1))).setByte ((s.reg SP).toNat - 1) (returnAddress s)).jump
        ((s.setReg SP (trunc8 ((s.reg SP).toNat - 1))).reg a)) := by
  by_cases h : s.reg SP = 0
  · rw [execCall, push_at_zero _ h, if_pos h]; rfl
  · rw [execCall, push_of_ne _ h, if_neg h]; rfl

/-- The value a POP increments: the popped byte for `POP R7`, the stack pointer otherwise (43_memory_stack.md R185). -/
abbrev popBase (a : Reg) (s : State) : Byte := if a = SP then s.byteAt (s.reg SP).toNat else s.reg SP

/-- Whether POP and RET raise StackUnderflow (43_memory_stack.md R187). -/
abbrev underflows (cfg : Config) (s : State) : Prop :=
  cfg.stackUnderflowCheck = true ∧ spInit.toNat ≤ (s.reg SP).toNat

theorem execPopWith_eq (cfg : Config) (a : Reg) (s : State) :
    execPopWith cfg a s = .next (
      if underflows cfg s then raise ⟨.stackUnderflow, (s.reg SP).toNat⟩ s
      else if (popBase a s).toNat < 255 then
        ((s.setReg a (s.byteAt (s.reg SP).toNat)).setReg SP (trunc8 ((popBase a s).toNat + 1))).advance 2
      else raise ⟨.outOfRange, 256⟩ s) := by
  by_cases hu : underflows cfg s
  · simp only [execPopWith, underflowCheck, if_pos hu, bind, Except.bind, settle_error]
  · by_cases hb : (popBase a s).toNat < 255
    · simp only [execPopWith, underflowCheck, if_neg hu, bind, Except.bind, stackTop_eq, spIncrement_of_lt hb, if_pos hb,
        pure, Except.pure, settle_ok]
    · simp only [execPopWith, underflowCheck, if_neg hu, bind, Except.bind, stackTop_eq, spIncrement_top hb, if_neg hb,
        settle_error]

theorem execRetWith_eq (cfg : Config) (s : State) :
    execRetWith cfg s = .next (
      if underflows cfg s then raise ⟨.stackUnderflow, (s.reg SP).toNat⟩ s
      else if (s.reg SP).toNat < 255 then
        (s.jump (s.byteAt (s.reg SP).toNat)).setReg SP (trunc8 ((s.reg SP).toNat + 1))
      else raise ⟨.outOfRange, 256⟩ s) := by
  by_cases hu : underflows cfg s
  · simp only [execRetWith, underflowCheck, if_pos hu, bind, Except.bind, settle_error]
  · by_cases hb : (s.reg SP).toNat < 255
    · simp only [execRetWith, underflowCheck, if_neg hu, bind, Except.bind, stackTop_eq, spIncrement_of_lt hb, if_pos hb,
        pure, Except.pure, settle_ok]
    · simp only [execRetWith, underflowCheck, if_neg hu, bind, Except.bind, stackTop_eq, spIncrement_top hb, if_neg hb,
        settle_error]

end Sys2Proof.Machine
end

