-- ==== Sys2Proof/Laws/PerInstr.lean ====
section
/-! SUPPORT. Statements about every instruction, one lemma per constructor. -/

namespace Sys2Proof.Laws.OperandsChecked

/-- An instruction is well formed: the operand bytes it stands for pass the check of 30_encoding.md R96, and it
occupies one to three bytes (R100). -/
def Statement (i : Instr) : Prop :=
  i.wellFormed = true ∧ ∀ opc, 1 ≤ (encode opc i).length ∧ (encode opc i).length ≤ 3

theorem isReg (r : Reg) : r.val % 256 ≤ 7 := by omega

theorem ldi (a : Reg) (imm : Byte) : Statement (.ldi a imm) := by
  simpa [Statement, Instr.wellFormed, Instr.raw, RawInstr.wellFormed, RawInstr.checkedOperands, encode, encodeOperands] using isReg a

theorem prn (a : Reg) : Statement (.prn a) := by
  simpa [Statement, Instr.wellFormed, Instr.raw, RawInstr.wellFormed, RawInstr.checkedOperands, encode, encodeOperands] using isReg a

theorem add (a b : Reg) : Statement (.add a b) := by
  simpa [Statement, Instr.wellFormed, Instr.raw, RawInstr.wellFormed, RawInstr.checkedOperands, encode, encodeOperands] using ⟨isReg a, isReg b⟩

theorem mul (a b : Reg) : Statement (.mul a b) := by
  simpa [Statement, Instr.wellFormed, Instr.raw, RawInstr.wellFormed, RawInstr.checkedOperands, encode, encodeOperands] using ⟨isReg a, isReg b⟩

theorem st (a b : Reg) : Statement (.st a b) := by
  simpa [Statement, Instr.wellFormed, Instr.raw, RawInstr.wellFormed, RawInstr.checkedOperands, encode, encodeOperands] using ⟨isReg a, isReg b⟩

theorem push (a : Reg) : Statement (.push a) := by
  simpa [Statement, Instr.wellFormed, Instr.raw, RawInstr.wellFormed, RawInstr.checkedOperands, encode, encodeOperands] using isReg a

theorem pop (a : Reg) : Statement (.pop a) := by
  simpa [Statement, Instr.wellFormed, Instr.raw, RawInstr.wellFormed, RawInstr.checkedOperands, encode, encodeOperands] using isReg a

theorem call (a : Reg) : Statement (.call a) := by
  simpa [Statement, Instr.wellFormed, Instr.raw, RawInstr.wellFormed, RawInstr.checkedOperands, encode, encodeOperands] using isReg a

theorem ret : Statement .ret := by
  simp [Statement, Instr.wellFormed, Instr.raw, RawInstr.wellFormed, RawInstr.checkedOperands, encode, encodeOperands]

theorem cmp (a b : Reg) : Statement (.cmp a b) := by
  simpa [Statement, Instr.wellFormed, Instr.raw, RawInstr.wellFormed, RawInstr.checkedOperands, encode, encodeOperands] using ⟨isReg a, isReg b⟩

theorem jeq (a : Reg) : Statement (.jeq a) := by
  simpa [Statement, Instr.wellFormed, Instr.raw, RawInstr.wellFormed, RawInstr.checkedOperands, encode, encodeOperands] using isReg a

theorem jne (a : Reg) : Statement (.jne a) := by
  simpa [Statement, Instr.wellFormed, Instr.raw, RawInstr.wellFormed, RawInstr.checkedOperands, encode, encodeOperands] using isReg a

theorem jmp (a : Reg) : Statement (.jmp a) := by
  simpa [Statement, Instr.wellFormed, Instr.raw, RawInstr.wellFormed, RawInstr.checkedOperands, encode, encodeOperands] using isReg a

theorem hlt : Statement .hlt := by
  simp [Statement, Instr.wellFormed, Instr.raw, RawInstr.wellFormed, RawInstr.checkedOperands, encode, encodeOperands]

end Sys2Proof.Laws.OperandsChecked
end

