-- ==== Sys2Proof/Laws/Step.lean ====
section
/-! SUPPORT. The cycle: the fetch in closed form, every meaning as one next state, and one inversion lemma that
says everything a step of any configuration can do. -/

namespace Sys2Proof.Machine

/-! ### Fetch -/

theorem fetch_of_le {s : State} (h : s.pc.toNat ≤ 253) :
    fetch s = .ok ⟨s.byteAt s.pc.toNat, s.byteAt (s.pc.toNat + 1), s.byteAt (s.pc.toNat + 2)⟩ := by
  have e1 : ((s.pc.toNat : Int) + 1) = ((s.pc.toNat + 1 : Nat) : Int) := by omega
  have e2 : ((s.pc.toNat : Int) + 2) = ((s.pc.toNat + 2 : Nat) : Int) := by omega
  simp only [fetch, e1, e2, memRead_nat, bind, Except.bind, pure, Except.pure]
  rw [if_pos (by omega), if_pos (by omega), if_pos (by omega)]

/-- A fetch that fails reports the first address above 255 (40_cycle.md R122): 256, from a pc of at most 256. -/
theorem fetch_of_gt {s : State} (h : 253 < s.pc.toNat) :
    fetch s = .error ⟨.outOfRange, max 256 s.pc.toNat⟩ := by
  have e1 : ((s.pc.toNat : Int) + 1) = ((s.pc.toNat + 1 : Nat) : Int) := by omega
  have e2 : ((s.pc.toNat : Int) + 2) = ((s.pc.toNat + 2 : Nat) : Int) := by omega
  simp only [fetch, e1, e2, memRead_nat, bind, Except.bind, pure, Except.pure]
  by_cases h0 : s.pc.toNat ≤ 255
  · rw [if_pos h0]
    by_cases h1 : s.pc.toNat + 1 ≤ 255
    · rw [if_pos h1, if_neg (by omega)]
      simp only [Except.error.injEq, Raised.mk.injEq, true_and]; omega
    · rw [if_neg h1]
      simp only [Except.error.injEq, Raised.mk.injEq, true_and]; omega
  · rw [if_neg h0]
    simp only [Except.error.injEq, Raised.mk.injEq, true_and]; omega

theorem fetch_of_windowIs {s : State} {b0 b1 b2 : Byte} (h : s.windowIs b0 b1 b2) : fetch s = .ok ⟨b0, b1, b2⟩ := by
  obtain ⟨hpc, rfl, rfl, rfl⟩ := h
  exact fetch_of_le hpc

/-- A fetch that succeeds started at 253 or below and read the memory as it stands. -/
theorem fetch_eq_ok {s : State} {w : Window} (h : fetch s = .ok w) :
    s.pc.toNat ≤ 253 ∧ w = ⟨s.byteAt s.pc.toNat, s.byteAt (s.pc.toNat + 1), s.byteAt (s.pc.toNat + 2)⟩ := by
  by_cases hp : s.pc.toNat ≤ 253
  · rw [fetch_of_le hp] at h; injection h with h; exact ⟨hp, h.symm⟩
  · rw [fetch_of_gt (by omega)] at h; cases h

/-! ### Meanings -/

/-- The chosen configuration is one of those `execWith` takes. -/
theorem exec_eq_execWith (i : Instr) (s : State) : exec i s = execWith machineConfig i s := by
  cases i <;> rfl

/-- The state an instruction leads to: every meaning, under every configuration, in one closed form. -/
def outcomeWith (cfg : Config) (i : Instr) (s : State) : State :=
  match i with
  | .ldi a imm => (s.setReg a imm).advance 3
  | .prn a => (s.emit (s.reg a)).advance 2
  | .add a b => (s.setReg a (aluAdd (s.reg a) (s.reg b))).advance 3
  | .mul a b => (s.setReg a (aluMul (s.reg a) (s.reg b))).advance 3
  | .st a b => (s.setByte (s.reg a).toNat (s.reg b)).advance (stAmount cfg.stAdvance)
  | .push a => if s.reg SP = 0 then raise ⟨.outOfRange, -1⟩ s else
      ((s.setReg SP (trunc8 ((s.reg SP).toNat - 1))).setByte ((s.reg SP).toNat - 1)
        ((s.setReg SP (trunc8 ((s.reg SP).toNat - 1))).reg a)).advance 2
  | .pop a =>
      if underflows cfg s then raise ⟨.stackUnderflow, (s.reg SP).toNat⟩ s
      else if (popBase a s).toNat < 255 then
        ((s.setReg a (s.byteAt (s.reg SP).toNat)).setReg SP (trunc8 ((popBase a s).toNat + 1))).advance 2
      else raise ⟨.outOfRange, 256⟩ s
  | .call a => if s.reg SP = 0 then raise ⟨.outOfRange, -1⟩ s else
      ((s.setReg SP (trunc8 ((s.reg SP).toNat - 1))).setByte ((s.reg SP).toNat - 1) (returnAddress s)).jump
        ((s.setReg SP (trunc8 ((s.reg SP).toNat - 1))).reg a)
  | .ret =>
      if underflows cfg s then raise ⟨.stackUnderflow, (s.reg SP).toNat⟩ s
      else if (s.reg SP).toNat < 255 then
        (s.jump (s.byteAt (s.reg SP).toNat)).setReg SP (trunc8 ((s.reg SP).toNat + 1))
      else raise ⟨.outOfRange, 256⟩ s
  | .cmp a b => (s.setFlags (aluCompare cfg.cmpEqual (s.reg a) (s.reg b))).advance 3
  | .jeq a => if s.fl.e then s.jump (s.reg a) else s.advance 2
  | .jne a => if !s.fl.e then s.jump (s.reg a) else s.advance 2
  | .jmp a => s.jump (s.reg a)
  | .hlt => s.halt

/-- No meaning stops: each answers its next state, and a raised error is one of them (40_cycle.md R128). -/
theorem execWith_eq (cfg : Config) (i : Instr) (s : State) : execWith cfg i s = .next (outcomeWith cfg i s) := by
  cases i with
  | st a b => exact execStWith_eq cfg a b s
  | push a => exact execPush_eq a s
  | pop a => exact execPopWith_eq cfg a s
  | call a => exact execCall_eq a s
  | ret => exact execRetWith_eq cfg s
  | ldi | prn | add | mul | cmp | jeq | jne | jmp | hlt => rfl

/-- A meaning that leaves a running state faulted left it raised, with nothing else changed (60_exceptions.md R242). -/
theorem outcomeWith_faulted {cfg : Config} {i : Instr} {s : State} {e : Err} (hr : s.run = .running)
    (h : (outcomeWith cfg i s).run = .faulted e) : ∃ x, outcomeWith cfg i s = raise x s := by
  cases i with
  | push | call =>
    simp only [outcomeWith] at h ⊢
    split at h
    · rw [if_pos ‹_›]; exact ⟨_, rfl⟩
    · simp [hr] at h
  | pop | ret =>
    simp only [outcomeWith] at h ⊢
    split at h
    · rw [if_pos ‹_›]; exact ⟨_, rfl⟩
    · rename_i h1
      split at h
      · simp [hr] at h
      · rw [if_neg h1, if_neg ‹_›]; exact ⟨_, rfl⟩
  | ldi | prn | add | mul | st | cmp | jmp | hlt => simp [outcomeWith, hr] at h
  | jeq | jne => simp only [outcomeWith] at h; split at h <;> simp [hr] at h

/-! ### The step -/

/-- Everything a step that answers a next state can be: a fetch that fails, a window that is no instruction, or the
meaning of the decoded instruction. -/
theorem stepWith_cases {cfg : Config} {s t : State} (h : stepWith cfg s = .next t) :
    s.run = .running ∧
      ((∃ e, fetch s = .error e ∧ t = raise e s) ∨
       (∃ w e, fetch s = .ok w ∧ decode cfg.opcode w = .error e ∧ t = raise (raisedOfDecode e) s) ∨
       (∃ w i, fetch s = .ok w ∧ decode cfg.opcode w = .ok i ∧ t = outcomeWith cfg i s)) := by
  unfold stepWith cycle at h
  split at h
  · rename_i hr
    refine ⟨hr, ?_⟩
    unfold runningCycle at h
    split at h
    · rename_i e he
      injection h with h
      exact .inl ⟨e, he, h.symm⟩
    · rename_i w hw
      split at h
      · rename_i e he
        injection h with h
        exact .inr (.inl ⟨w, e, hw, he, h.symm⟩)
      · rename_i i hi
        rw [execWith_eq] at h
        injection h with h
        exact .inr (.inr ⟨w, i, hw, hi, h.symm⟩)
  · cases h
  · cases h

theorem stepWith_of_fetch_error {cfg : Config} {s : State} {e : Raised} (hr : s.run = .running)
    (h : fetch s = .error e) : stepWith cfg s = .next (raise e s) := by
  simp only [stepWith, cycle, hr, runningCycle, h]

theorem stepWith_of_decode_error {cfg : Config} {s : State} {w : Window} {e : DecodeError} (hr : s.run = .running)
    (hw : fetch s = .ok w) (h : decode cfg.opcode w = .error e) :
    stepWith cfg s = .next (raise (raisedOfDecode e) s) := by
  simp only [stepWith, cycle, hr, runningCycle, hw, h]

theorem stepWith_of_decode {cfg : Config} {s : State} {w : Window} {i : Instr} (hr : s.run = .running)
    (hw : fetch s = .ok w) (h : decode cfg.opcode w = .ok i) : stepWith cfg s = execWith cfg i s := by
  simp only [stepWith, cycle, hr, runningCycle, hw, h]

end Sys2Proof.Machine
end

