-- ==== Sys2Proof/Tests/Slice0.lean ====
section
/-! SUPPORT. Small tests: ill-formed terms refused, words written from the encoding tables, one step per instruction with
the results of spec/95_test_vectors.md (each test names its vector), and for every statement with hypotheses a
state that meets them. -/

namespace Sys2Proof.Tests

open Sys2Proof Sys2Proof.Machine

/-! ### Builders -/

/-- `s` with bytes stored from `pc` on, and its program counter there. -/
def placed (pc : Nat) (bytes : List Byte) (s : State := State.reset) : State :=
  { s with mem := s.mem.writeAll pc bytes, pc := BitVec.ofNat 9 pc }

/-- `s` with registers set. -/
def withRegs (rs : List (Reg × Byte)) (s : State := State.reset) : State := rs.foldl (fun t p => t.setReg p.1 p.2) s

/-- The configuration that differs from the chosen one in each of its three behaviours. -/
def otherConfig : Config where
  opcode := defaultOpcode
  cmpEqual := .corrected
  stAdvance := .three
  stackUnderflowCheck := true

/-- A legal opcode map other than the default: every byte one higher. -/
def shiftedOpcode : OpcodeMap := fun m => defaultOpcode m + 1

/-- A field of the next state of a step. -/
def stepGives {α : Type} (s : State) (f : State → α) : Option α := (next? (step s)).map f

/-- A field of the next state under a configuration. -/
def stepWithGives {α : Type} (cfg : Config) (s : State) (f : State → α) : Option α := (next? (stepWith cfg s)).map f

/-! ### WellFormed: an ill-formed term for each check -/

theorem test_wf_refuses_bad_b1_of_one_register_forms :
    [Mnemonic.ldi, .prn, .push, .pop, .call, .jeq, .jne, .jmp].all (fun m => !(RawInstr.mk m 8 0).wellFormed) = true := by
  decide
theorem test_wf_refuses_bad_b1_of_two_register_forms :
    [Mnemonic.add, .mul, .cmp, .st].all (fun m => !(RawInstr.mk m 8 0).wellFormed) = true := by decide
theorem test_wf_refuses_bad_b2_of_two_register_forms :
    [Mnemonic.add, .mul, .cmp, .st].all (fun m => !(RawInstr.mk m 7 8).wellFormed) = true := by decide
theorem test_wf_reports_first_bad : (RawInstr.mk .add 9 10).firstBadRegister = some 9 := by decide
theorem test_wf_ignores_unchecked : (RawInstr.mk .ret 255 255).wellFormed = true ∧ (RawInstr.mk .ldi 7 255).wellFormed = true ∧
    (RawInstr.mk .jeq 7 255).wellFormed = true := by decide
theorem test_opcode_map_refuses_zero :
    OpcodeMap.wellFormed (fun m => if m = .hlt then 0 else defaultOpcode m) = false := by decide
theorem test_opcode_map_refuses_repeat :
    OpcodeMap.wellFormed (fun m => if m = .hlt then 0x11 else defaultOpcode m) = false := by decide
theorem test_image_refuses_257_bytes : imageWellFormed (List.replicate 257 0) = false := by
  rw [imageWellFormed, List.length_replicate]; decide

/-! ### Decoding: each constructor's word, from 30_encoding.md R92 to R94 and the rules' examples -/

theorem test_decode_ldi : decode defaultOpcode ⟨0b10000010, 0b00000010, 0b11001000⟩ = .ok (.ldi 2 200) := by decide
theorem test_decode_prn : decode defaultOpcode ⟨0b01000111, 0b00000000, 0b11111111⟩ = .ok (.prn 0) := by decide
theorem test_decode_add : decode defaultOpcode ⟨0b10100000, 0b00000110, 0b00000001⟩ = .ok (.add 6 1) := by decide
theorem test_decode_mul : decode defaultOpcode ⟨0b10100010, 0b00000011, 0b00000111⟩ = .ok (.mul 3 7) := by decide
theorem test_decode_st : decode defaultOpcode ⟨0b10000100, 0b00000111, 0b00000001⟩ = .ok (.st 7 1) := by decide
theorem test_decode_push : decode defaultOpcode ⟨0b01000101, 0b00000111, 0b01000110⟩ = .ok (.push 7) := by decide
theorem test_decode_pop : decode defaultOpcode ⟨0b01000110, 0b00000010, 0b00010001⟩ = .ok (.pop 2) := by decide
theorem test_decode_call : decode defaultOpcode ⟨0b01010000, 0b00000001, 0b01000111⟩ = .ok (.call 1) := by decide
theorem test_decode_ret : decode defaultOpcode ⟨0b00010001, 0b11111111, 0b11111111⟩ = .ok .ret := by decide
theorem test_decode_cmp : decode defaultOpcode ⟨0b10100111, 0b00000101, 0b00000100⟩ = .ok (.cmp 5 4) := by decide
theorem test_decode_jeq : decode defaultOpcode ⟨0b01010101, 0b00000010, 0b11111111⟩ = .ok (.jeq 2) := by decide
theorem test_decode_jne : decode defaultOpcode ⟨0b01010110, 0b00000011, 0b01000111⟩ = .ok (.jne 3) := by decide
theorem test_decode_jmp : decode defaultOpcode ⟨0b01010100, 0b00000100, 0b00000000⟩ = .ok (.jmp 4) := by decide
theorem test_decode_hlt : decode defaultOpcode ⟨0b00000001, 0b11111111, 0b11111111⟩ = .ok .hlt := by decide
theorem test_decode_refuses_by_name : decode defaultOpcode ⟨0xA0, 9, 10⟩ = .error (.invalidRegister 9) ∧
    decode defaultOpcode ⟨0xFF, 0, 0⟩ = .error (.invalidOpcode 0xFF) := by decide
/-- The image of program P1 of 95_test_vectors.md, byte for byte. -/
theorem test_encode_p1 : ([.ldi 0 65, .ldi 1 20, .add 0 1, .prn 0, .hlt] : List Instr).flatMap (encode defaultOpcode) =
    [0x82, 0x00, 0x41, 0x82, 0x01, 0x14, 0xA0, 0x00, 0x01, 0x47, 0x00, 0x01] := by decide
/-- The assembly line the source shows (30_encoding.md R101). -/
theorem test_asm_p1 : asmLine [.ldi 0 65, .ldi 1 20, .add 0 1, .prn 0, .hlt] =
    "LDI R0,65; LDI R1,20; ADD R0,R1; PRN R0; HLT" := by decide
/-- Table words: the first byte is bits 7..0; bits above nbits are dropped. -/
theorem test_table_word : decodeTableWord 24 0xC80282 = some (.ldi 2 200) ∧ decodeTableWord 8 0x82 = some (.ldi 0 0) ∧
    decodeTableWord 8 0xFF = none := by decide

/-! ### One step, with the vectors of 95_test_vectors.md -/

/-- V3, V4, V5 -/
theorem test_fetch_past_top : [254, 255, 256].map (fun p => stepGives (placed p [1]) State.run) =
    [some (.faulted ⟨.outOfRange, 1, 256, 254⟩), some (.faulted ⟨.outOfRange, 1, 256, 255⟩),
     some (.faulted ⟨.outOfRange, 1, 256, 256⟩)] := by decide
/-- V1 -/
theorem test_invalid_opcode : stepGives State.reset (fun t => (t.run, t.pc)) =
    some (.faulted ⟨.invalidOpcode, 3, 0, 0⟩, 0) := by decide
/-- V9, V13 -/
theorem test_invalid_register : stepGives (placed 0 [0xA0, 9, 10]) State.run = some (.faulted ⟨.invalidRegister, 2, 9, 0⟩) ∧
    stepGives (placed 0 [0x55, 8, 0]) State.run = some (.faulted ⟨.invalidRegister, 2, 8, 0⟩) := by decide
/-- V7 -/
theorem test_ldi_at_253 : stepGives (placed 253 [0x82, 0, 9]) (fun t => (t.reg 0, t.pc, t.run)) = some (9, 256, .running) := by
  decide
/-- V21 -/
theorem test_ldi_r7 : stepGives (placed 0 [0x82, 7, 0x10]) (fun t => (t.reg 7, t.pc)) = some (0x10, 3) := by decide
/-- V25 -/
theorem test_prn_r7 : stepGives (placed 0 [0x47, 7]) (fun t => (t.out, t.pc)) = some ([0xF4], 2) := by decide
/-- Events are in program order (10_state.md R47). -/
theorem test_prn_appends : stepGives { placed 0 [0x47, 7] with out := [1] } State.out = some [1, 0xF4] := by decide
/-- V30 -/
theorem test_add_wraps : stepGives (placed 0 [0xA0, 0, 1] (withRegs [(0, 200), (1, 100)])) (fun t => (t.reg 0, t.reg 1)) =
    some (44, 100) := by decide
/-- V32 -/
theorem test_add_same : stepGives (placed 0 [0xA0, 2, 2] (withRegs [(2, 200)])) (fun t => t.reg 2) = some 144 := by decide
/-- V34 -/
theorem test_mul_low_byte : stepGives (placed 0 [0xA2, 0, 1] (withRegs [(0, 255), (1, 255)])) (fun t => (t.reg 0, t.reg 1)) =
    some (1, 255) := by decide
/-- V37 -/
theorem test_mul_small : stepGives (placed 0 [0xA2, 0, 1] (withRegs [(0, 7), (1, 3)])) (fun t => (t.reg 0, t.pc)) =
    some (21, 3) := by decide
/-- V60, V61 -/
theorem test_st_advance : stepGives (placed 0 [0x84, 0, 1] (withRegs [(0, 0x80), (1, 5)])) (fun t => (t.byteAt 0x80, t.pc)) =
      some (5, 2) ∧
    stepWithGives otherConfig (placed 0 [0x84, 0, 1] (withRegs [(0, 0x80), (1, 5)])) (fun t => (t.byteAt 0x80, t.pc)) =
      some (5, 3) := by decide
/-- V64 -/
theorem test_st_own_operand : stepGives (placed 0 [0x84, 0, 1] (withRegs [(0, 2), (1, 0x47)])) (fun t => t.byteAt 2) =
    some 0x47 := by decide
/-- V71 -/
theorem test_push_r7 : stepGives (placed 0 [0x45, 7]) (fun t => (t.reg 7, t.byteAt 0xF3, t.pc)) = some (0xF3, 0xF3, 2) := by
  decide
/-- V72 -/
theorem test_push_at_zero : stepGives (placed 0 [0x45, 0] (withRegs [(7, 0)])) (fun t => (t.run, t.reg 7)) =
    some (.faulted ⟨.outOfRange, 1, -1, 0⟩, 0) := by decide
/-- V75, V78 -/
theorem test_pop_r7 :
    stepGives (placed 0 [0x46, 7] ((withRegs [(7, 0xF3)]).setByte 0xF3 0x40)) (fun t => t.reg 7) = some 0x41 ∧
    stepGives (placed 0 [0x46, 7] ((withRegs [(7, 0xFF)]).setByte 0xFF 3)) (fun t => (t.reg 7, t.run)) =
      some (4, .running) := by decide
/-- V77, V80 -/
theorem test_pop_faults :
    stepGives (placed 0 [0x46, 0] (withRegs [(7, 0xFF)])) State.run = some (.faulted ⟨.outOfRange, 1, 256, 0⟩) ∧
    stepWithGives otherConfig (placed 0 [0x46, 0]) State.run = some (.faulted ⟨.stackUnderflow, 4, 0xF4, 0⟩) := by decide
/-- V81, and RET beside it -/
theorem test_checked_pop_and_ret_below_the_top :
    stepWithGives otherConfig (placed 0 [0x46, 0] ((withRegs [(7, 0xF3)]).setByte 0xF3 1))
      (fun t => (t.reg 0, t.reg 7, t.run)) = some (1, 0xF4, .running) ∧
    stepWithGives otherConfig (placed 0 [0x11] ((withRegs [(7, 0xF3)]).setByte 0xF3 8))
      (fun t => (t.pc, t.reg 7, t.run)) = some (8, 0xF4, .running) := by decide
/-- V90 -/
theorem test_call : stepGives (placed 6 [0x50, 1] (withRegs [(1, 16)])) (fun t => (t.byteAt 0xF3, t.reg 7, t.pc)) =
    some (8, 0xF3, 16) := by decide
/-- V91 -/
theorem test_call_r7 : stepGives (placed 6 [0x50, 7]) (fun t => (t.byteAt 0xF3, t.reg 7, t.pc)) = some (8, 0xF3, 0xF3) := by
  decide
/-- V93 -/
theorem test_ret : stepGives (placed 0 [0x11] ((withRegs [(7, 0xF3)]).setByte 0xF3 8)) (fun t => (t.pc, t.reg 7)) =
    some (8, 0xF4) := by decide
/-- V94, V96 -/
theorem test_ret_faults :
    stepGives (placed 0 [0x11] (withRegs [(7, 0xFF)])) State.run = some (.faulted ⟨.outOfRange, 1, 256, 0⟩) ∧
    stepWithGives otherConfig (placed 0 [0x11]) State.run = some (.faulted ⟨.stackUnderflow, 4, 0xF4, 0⟩) := by decide
/-- V42 -/
theorem test_cmp_greater :
    stepGives (placed 0 [0xA7, 0, 1] (withRegs [(0, 9), (1, 4)])) State.fl = some ⟨true, false, true⟩ ∧
    stepWithGives otherConfig (placed 0 [0xA7, 0, 1] (withRegs [(0, 9), (1, 4)])) State.fl = some ⟨true, false, false⟩ := by
  decide
/-- V45, V47 -/
theorem test_cmp_unsigned_and_overwrites :
    stepGives (placed 0 [0xA7, 0, 1] (withRegs [(0, 128), (1, 127)])) State.fl = some ⟨true, false, true⟩ ∧
    stepGives ((placed 0 [0xA7, 0, 1] (withRegs [(0, 1), (1, 2)])).setFlags ⟨true, false, true⟩) State.fl =
      some ⟨false, true, false⟩ := by decide
/-- V51, V52 -/
theorem test_jeq : stepGives ((placed 0 [0x55, 2] (withRegs [(2, 0x20)])).setFlags ⟨false, false, true⟩) State.pc = some 0x20 ∧
    stepGives (placed 0 [0x55, 2] (withRegs [(2, 0x20)])) State.pc = some 2 := by decide
/-- V54, V55 -/
theorem test_jne : stepGives (placed 0 [0x56, 2] (withRegs [(2, 0x20)])) State.pc = some 0x20 ∧
    stepGives ((placed 0 [0x56, 2] (withRegs [(2, 0x20)])).setFlags ⟨false, false, true⟩) State.pc = some 2 := by decide
/-- V50, V59 -/
theorem test_jmp : stepGives (placed 0 [0x54, 2] (withRegs [(2, 0x20)])) State.pc = some 0x20 ∧
    stepGives (placed 0 [0x54, 2] (withRegs [(2, 0xFE)])) State.pc = some 0xFE := by decide
/-- V100, V6 -/
theorem test_hlt : stepGives (placed 5 [1]) (fun t => (t.run, t.pc)) = some (.halted, 5) ∧
    stepGives (placed 253 [1]) (fun t => (t.run, t.pc)) = some (.halted, 253) := by decide
/-- V101, V102 -/
theorem test_no_step : next? (step { State.reset with run := .halted }) = none ∧
    next? (step { State.reset with run := .faulted ⟨.invalidOpcode, 3, 0, 0⟩ }) = none := by decide
/-- The loader places an image from address 0 (70_reset_and_hazards.md R273). -/
theorem test_start : (State.start [0x82, 0, 0, 5]).map State.mem = some [(0, 0x82), (3, 5)] ∧
    (State.start [0x82, 0, 0, 5]).map (fun s => (s.byteAt 2, s.byteAt 3, s.byteAt 4)) = some (0, 5, 0) := by decide
/-- A placed word runs next, from a state that cannot itself fetch. -/
theorem test_withFetchWord :
    stepGives (State.withFetchWord { State.reset with pc := 256, run := .halted } 8 0x01) State.run = some .halted ∧
    stepGives (State.reset.withFetchWord 24 0xC80282) (fun t => t.reg 2) = some 200 := by decide
/-- ALU subtract, which no instruction reaches (42_arith.md R163). -/
theorem test_alu_sub : aluSub 5 7 = 254 := by decide

/-! ### The hypotheses of the statements are met -/

theorem test_witness_legal_maps : defaultOpcode.wellFormed = true ∧ shiftedOpcode.wellFormed = true := by decide
theorem test_witness_DecodeOfEncode :
    decode shiftedOpcode (Window.ofBytes (encode shiftedOpcode (.st 7 7) ++ [0xFF])) = .ok (.st 7 7) ∧
    decode shiftedOpcode (Window.ofBytes (encode shiftedOpcode .hlt ++ [])) = .ok .hlt := by decide
theorem test_witness_EncodeOfDecode : decode defaultOpcode ⟨0xA0, 7, 7⟩ = .ok (.add 7 7) := by decide
theorem test_witness_EveryWindowHasItsOutcome :
    (Mnemonic.all.all (fun m => decide (defaultOpcode m ≠ 0xFF)) = true) ∧
    (RawInstr.mk .add 7 8).firstBadRegister = some 8 ∧ (RawInstr.mk .add 7 7).firstBadRegister = none ∧
    defaultOpcode .add = 0xA0 := by decide
theorem test_witness_IgnoredBytesDoNotMatter :
    Mnemonic.hlt ∈ [Mnemonic.ret, .hlt] ∧ Mnemonic.jmp ∈ [Mnemonic.prn, .push, .pop, .call, .jeq, .jne, .jmp] := by decide
theorem test_witness_StepRunsDecodedInstruction :
    (placed 253 [0x01, 8, 8]).run = .running ∧ (placed 253 [0x01, 8, 8]).windowIs 0x01 8 8 ∧
    decode machineConfig.opcode ⟨0x01, 8, 8⟩ = .ok .hlt := by decide
theorem test_witness_StepIsTheChosenConfiguration :
    (Instr.hlt).raw.m ∉ [Mnemonic.st, .pop, .ret, .cmp] := by decide
theorem test_witness_FetchReadsThreeBytes : (placed 253 [1, 2, 3]).pc.toNat ≤ 253 := by decide
theorem test_witness_FetchPastTheTopRaises : (placed 254 [1]).run = .running ∧ 254 ≤ (placed 254 [1]).pc.toNat ∧
    (placed 256 []).run = .running ∧ (placed 256 []).pc.toNat ≤ 256 := by decide
theorem test_witness_UnassignedOpcodeRaises :
    (placed 253 [0, 1, 1]).run = .running ∧ (placed 253 [0, 1, 1]).windowIs 0 1 1 ∧
    otherConfig.opcode.wellFormed = true ∧ Mnemonic.all.all (fun m => decide (otherConfig.opcode m ≠ 0)) = true := by decide
theorem test_witness_BadRegisterRaises :
    otherConfig.opcode.wellFormed = true ∧ (placed 253 [0xA0, 7, 8]).run = .running ∧
    (placed 253 [0xA0, 7, 8]).windowIs (otherConfig.opcode .add) 7 8 ∧ (RawInstr.mk .add 7 8).firstBadRegister = some 8 ∧
    (placed 0 [0x55, 8]).windowIs (otherConfig.opcode .jeq) 8 0 ∧ (RawInstr.mk .jeq 8 0).firstBadRegister = some 8 := by decide
theorem test_witness_EndedEngineHasNoStep :
    State.ended { State.reset with run := .halted } ∧
    State.ended { State.reset with run := .faulted ⟨.outOfRange, 1, 256, 0⟩ } := by decide
theorem test_witness_RunningEngineAlwaysSteps : State.reset.run = .running := by decide
theorem test_witness_ErrorsArePrecise :
    ∃ t e, stepWith otherConfig (placed 254 [1]) = .next t ∧ t.run = .faulted e := ⟨_, _, rfl, rfl⟩
theorem test_witness_OnlyHltEndsCleanly :
    otherConfig.opcode.wellFormed = true ∧ (placed 253 [1]).run = .running ∧ (placed 253 [1]).pc.toNat ≤ 253 ∧
    (placed 253 [1]).byteAt 253 = otherConfig.opcode .hlt ∧
    ∃ t, stepWith otherConfig (placed 253 [1]) = .next t ∧ t.run = .halted :=
  ⟨by decide, by decide, by decide, by decide, _, rfl, rfl⟩
theorem test_witness_HandlersRaiseOnlyAtTheStack :
    (∃ t e, execWith otherConfig (.push 7) (withRegs [(7, 0)]) = .next t ∧ t.run = .faulted e) ∧
    (∃ t e, execWith otherConfig (.call 0) (withRegs [(7, 0)]) = .next t ∧ t.run = .faulted e) ∧
    (∃ t e, execWith machineConfig .ret (withRegs [(7, 255)]) = .next t ∧ t.run = .faulted e) ∧
    (∃ t e, execWith machineConfig (.pop 6) (withRegs [(7, 255)]) = .next t ∧ t.run = .faulted e) ∧
    (∃ t e, execWith machineConfig (.pop 7) (State.reset.setByte 0xF4 255) = .next t ∧ t.run = .faulted e) ∧
    (∃ t e, execWith otherConfig .ret State.reset = .next t ∧ t.run = .faulted e) :=
  ⟨⟨_, _, rfl, rfl⟩, ⟨_, _, rfl, rfl⟩, ⟨_, _, rfl, rfl⟩, ⟨_, _, rfl, rfl⟩, ⟨_, _, rfl, rfl⟩, ⟨_, _, rfl, rfl⟩⟩
theorem test_witness_start : (State.start (List.replicate 256 7)).isSome = true ∧
    (State.start (List.replicate 257 7)).isSome = false := by
  constructor
  · rw [State.start, State.loadImage, imageWellFormed, List.length_replicate]; rfl
  · rw [State.start, State.loadImage, imageWellFormed, List.length_replicate]; rfl
theorem test_witness_EveryStepKeepsInvariant :
    Inv machineConfig (placed 253 [0x82, 7, 9]) ∧ ∃ t, step (placed 253 [0x82, 7, 9]) = .next t ∧ t.pc = 256 :=
  ⟨⟨by decide, by decide, fun e h => by cases h⟩, _, rfl, by decide⟩
theorem test_witness_OutputGrowsOnlyByPrn :
    ∃ t, stepWith otherConfig (placed 0 [0x47, 7]) = .next t ∧ t.out = [0xF4] := ⟨_, rfl, by decide⟩
theorem test_witness_MemoryChangesOnlyByStores :
    (placed 0 [0x84, 7, 1] (withRegs [(7, 255), (1, 5)])).mem.wf ∧
    (∃ t, stepWith otherConfig (placed 0 [0x84, 7, 1] (withRegs [(7, 255), (1, 5)])) = .next t ∧ t.byteAt 255 ≠ 0) ∧
    ∃ t, stepWith otherConfig (placed 2 [0x50, 7] (withRegs [(7, 1)])) = .next t ∧ t.byteAt 0 ≠ 0 :=
  ⟨by decide, ⟨_, rfl, by decide⟩, _, rfl, by decide⟩
theorem test_witness_FlagsBelongToCmp :
    (∃ t, stepWith otherConfig (placed 0 [0xA0, 0, 0]) = .next t) ∧
    (placed 0 [0xA0, 0, 0]).byteAt 0 ≠ otherConfig.opcode .cmp ∧
    (placed 253 [0xA7, 7, 7]).windowIs (otherConfig.opcode .cmp) (regByte 7) (regByte 7) ∧
    (∃ t, stepWith otherConfig (placed 0 [0x55, 0]) = .next t) ∧
    (placed 0 [0x55, 0]).byteAt 0 = otherConfig.opcode .jeq ∧ (placed 0 [0x55, 0]).fl.e = false :=
  ⟨⟨_, rfl⟩, by decide, by decide, ⟨_, rfl⟩, by decide, by decide⟩
theorem test_witness_GreaterAndLessAreUnobservable :
    AgreeButGL (placed 0 [0x56, 0]) ((placed 0 [0x56, 0]).setFlags ⟨true, true, false⟩) := ⟨rfl, rfl, rfl, rfl, rfl, rfl⟩
theorem test_witness_StoreIsFetchedNext :
    (placed 251 [0x84, 7, 7] (withRegs [(7, 255)])).mem.wf ∧
    (placed 251 [0x84, 7, 7] (withRegs [(7, 255)])).windowIs (machineConfig.opcode .st) (regByte 7) (regByte 7) ∧
    ∃ t, stepWith machineConfig (placed 251 [0x84, 7, 7] (withRegs [(7, 255)])) = .next t ∧ t.pc.toNat ≤ 253 ∧
      t.byteAt 255 = 255 := ⟨by decide, by decide, _, rfl, by decide, by decide⟩
theorem test_witness_JumpToItselfRunsForever :
    (placed 253 [0x54, 4] (withRegs [(4, 253)])).run = .running ∧
    (placed 253 [0x54, 4] (withRegs [(4, 253)])).windowIs (machineConfig.opcode .jmp) (regByte 4) 0 ∧
    ((placed 253 [0x54, 4] (withRegs [(4, 253)])).reg 4).toNat = 253 ∧
    stepGives (placed 253 [0x54, 4] (withRegs [(4, 253)])) id = some (placed 253 [0x54, 4] (withRegs [(4, 253)])) := by
  decide
theorem test_witness_CanonicalMemories :
    Memory.wf (Memory.write (Memory.write [] 3 1) 255 2) ∧ Memory.wf (Memory.write (Memory.write [] 255 2) 3 1) ∧
    Memory.write (Memory.write [] 3 1) 255 2 = Memory.write (Memory.write [] 255 2) 3 1 ∧
    Memory.write [(0, 7)] 0 0 = [] := by decide
theorem test_witness_TraceShowsPcWindowAndRegisters :
    (placed 253 [1, 2, 3]).windowIs 1 2 3 ∧ (placed 254 [1, 2]).pc.toNat = 254 ∧ (placed 255 [1]).pc.toNat = 255 ∧
    (placed 254 [1, 2]).trace.b1 = some 2 ∧ (placed 255 [1]).trace.b0 = some 1 ∧ 255 < (placed 256 []).pc.toNat := by decide
theorem test_witness_PlacedWordRunsNext :
    (placed 254 [1, 1]).mem.wf ∧ decodeTableWord 24 0x0707A0 = some (.add 7 7) := by decide
theorem test_witness_MemoryPrimitives :
    State.reset.mem.wf ∧ memRead State.reset 256 = .error ⟨.outOfRange, 256⟩ ∧ memRead State.reset (-1) = .error ⟨.outOfRange, -1⟩ ∧
    memRead State.reset 255 = .ok 0 ∧ memWrite State.reset 255 7 = .ok (State.reset.setByte 255 7) ∧
    memWrite State.reset 256 7 = .error ⟨.outOfRange, 256⟩ := by decide
theorem test_witness_AluCompareTable : (0 : Byte).toNat < (255 : Byte).toNat ∧ (7 : Byte).toNat = (7 : Byte).toNat ∧
    (128 : Byte).toNat > (127 : Byte).toNat := by decide
theorem test_witness_rules_for_every_configuration :
    otherConfig.opcode.wellFormed = true ∧
    (placed 254 [0x82]).run = .running ∧ 254 ≤ (placed 254 [0x82]).pc.toNat ∧ (placed 256 []).pc.toNat ≤ 256 ∧
    (placed 253 [0x82, 8, 0]).windowIs (otherConfig.opcode .ldi) 8 0 ∧ (RawInstr.mk .ldi 8 0).firstBadRegister = some 8 ∧
    (placed 253 [0x82, 7, 255]).windowIs (otherConfig.opcode .ldi) (regByte 7) 255 ∧
    (placed 253 [0x47, 7, 255]).windowIs (otherConfig.opcode .prn) (regByte 7) 255 ∧
    (placed 253 [0xA0, 7, 0]).windowIs (otherConfig.opcode .add) (regByte 7) (regByte 0) ∧
    (placed 253 [0x54, 7, 255]).windowIs (otherConfig.opcode .jmp) (regByte 7) 255 ∧
    (placed 253 [0x54, 8, 0]).windowIs (otherConfig.opcode .jmp) 8 0 ∧ (RawInstr.mk .jmp 8 0).firstBadRegister = some 8 ∧
    (placed 253 [0x47, 255, 0]).windowIs (otherConfig.opcode .prn) 255 0 ∧ (RawInstr.mk .prn 255 0).firstBadRegister = some 255 ∧
    (placed 253 [0xA0, 7, 8]).windowIs (otherConfig.opcode .add) 7 8 ∧ (RawInstr.mk .add 7 8).firstBadRegister = some 8 := by
  decide
/-- For every completion statement: pc at its highest legal value, the stack pointer at the ends of its range, and the
result of one instruction there. -/
theorem test_witness_completions :
    (placed 253 []).pc.toNat ≤ 253 ∧ (placed 253 []).mem.wf ∧
    storeAddress (withRegs [(0, 255)]) 0 = (255 : Nat) ∧
    (withRegs [(7, 1)]).reg SP ≠ 0 ∧ (withRegs [(7, 255)]).reg SP ≠ 0 ∧ spDecrement 1 = .ok 0 ∧
    (withRegs [(7, 254)]).poppedSp 6 < 255 ∧ ((withRegs [(7, 255)]).setByte 255 254).poppedSp 7 < 255 ∧
    ((withRegs [(7, 254)]).reg SP).toNat < 255 ∧ (6 : Reg) ≠ SP ∧
    machineConfig.stackUnderflowCheck = false ∧ otherConfig.stackUnderflowCheck = true ∧
    ((withRegs [(7, 0xF3)]).reg SP).toNat < 0xF4 ∧ (withRegs [(7, 0xF3)]).poppedSp 0 < 255 ∧
    (next? (exec (.push 7) (placed 253 [] (withRegs [(7, 1)])))).map (fun t => (t.reg 7, t.byteAt 0, t.pc)) = some (0, 0, 255) ∧
    (next? (exec (.call 7) (placed 253 [] (withRegs [(7, 255)])))).map (fun t => (t.reg 7, t.byteAt 254, t.pc)) =
      some (254, 255, 254) ∧
    (next? (exec (.pop 6) (placed 253 [] ((withRegs [(7, 254)]).setByte 254 9)))).map (fun t => (t.reg 6, t.reg 7, t.pc)) =
      some (9, 255, 255) := by decide
theorem test_witness_StackBoundsRaise : (withRegs [(7, 0)]).reg SP = 0 ∧ (withRegs [(7, 255)]).reg SP = 255 ∧ (0 : Reg) ≠ SP ∧
    (State.reset.setByte 0xF4 255).byteAt ((State.reset.setByte 0xF4 255).reg SP).toNat = 255 := by decide
theorem test_witness_UnderflowCheckIsConfigured :
    otherConfig.stackUnderflowCheck = true ∧ 0xF4 ≤ (State.reset.reg SP).toNat ∧ 0xF4 ≤ ((withRegs [(7, 255)]).reg SP).toNat ∧
    (∃ t e, stepWith otherConfig (placed 253 [0x46, 0]) = .next t ∧ t.run = .faulted e ∧ e.kind = .stackUnderflow) ∧
    ∃ t e, stepWith otherConfig (placed 253 [0x11] (withRegs [(7, 255)])) = .next t ∧ t.run = .faulted e ∧
      e.kind = .stackUnderflow :=
  ⟨by decide, by decide, by decide, ⟨_, _, rfl, rfl, rfl⟩, _, _, rfl, rfl, rfl⟩
theorem test_witness_StFollowsItsRule_CmpFollowsItsRule :
    (placed 253 [0x84, 7, 0]).mem.wf ∧ (placed 253 [0x84, 7, 0]).windowIs (otherConfig.opcode .st) (regByte 7) (regByte 0) ∧
    (placed 253 [0xA7, 7, 0]).windowIs (otherConfig.opcode .cmp) (regByte 7) (regByte 0) ∧
    (placed 253 [0x84, 8, 0]).windowIs (otherConfig.opcode .st) 8 0 ∧ (RawInstr.mk .st 8 0).firstBadRegister = some 8 ∧
    (placed 253 [0xA7, 7, 8]).windowIs (otherConfig.opcode .cmp) 7 8 ∧ (RawInstr.mk .cmp 7 8).firstBadRegister = some 8 ∧
    machineConfig.stAdvance = .two ∧ otherConfig.stAdvance = .three ∧ machineConfig.cmpEqual = .literal ∧
    otherConfig.cmpEqual = .corrected := by decide
theorem test_witness_LdiThenPrnEmitsTheImmediate :
    (placed 250 [0x82, 7, 255, 0x47, 7]).windowIs (otherConfig.opcode .ldi) (regByte 7) 255 ∧
    (placed 250 [0x82, 7, 255, 0x47, 7]).pc.toNat + 3 ≤ 253 ∧
    (placed 250 [0x82, 7, 255, 0x47, 7]).byteAt 253 = otherConfig.opcode .prn ∧
    (placed 250 [0x82, 7, 255, 0x47, 7]).byteAt 254 = regByte 7 := by decide
theorem test_witness_PushThenPopRestores : (withRegs [(7, 1)]).mem.wf ∧ (withRegs [(7, 1)]).reg SP ≠ 0 := by decide
theorem test_witness_RetContinuesAfterCall :
    ∃ t, exec (.call 7) (placed 253 []) = .next t ∧ (placed 253 []).reg SP ≠ 0 ∧
      ({ t with fl := ⟨true, true, true⟩, pc := 9 } : State).reg SP = t.reg SP ∧
      ({ t with fl := ⟨true, true, true⟩, pc := 9 } : State).byteAt (t.reg SP).toNat = t.byteAt (t.reg SP).toNat :=
  ⟨_, rfl, by decide, rfl, rfl⟩
theorem test_witness_StIsFollowedByItsOperand :
    (placed 251 [0x84, 0, 1] (withRegs [(0, 253)])).pc.toNat ≤ 251 ∧ (placed 251 [0x84, 0, 1] (withRegs [(0, 253)])).mem.wf ∧
    (placed 251 [0x84, 0, 1] (withRegs [(0, 253)])).windowIs (defaultOpcode .st) (regByte 0) (regByte 1) ∧
    ((placed 251 [0x84, 0, 1] (withRegs [(0, 253)])).reg 0).toNat = 253 ∧
    (placed 251 [0x84, 0, 7] (withRegs [(0, 254)])).windowIs (defaultOpcode .st) (regByte 0) (regByte 7) ∧
    ((placed 251 [0x84, 0, 7] (withRegs [(0, 254)])).reg 0).toNat ≠ 253 ∧
    ∃ t, step (placed 251 [0x84, 0, 1] (withRegs [(0, 253)])) = .next t :=
  ⟨by decide, by decide, by decide, by decide, by decide, by decide, _, rfl⟩
theorem test_witness_JumpsAfterCmp : (placed 250 []).pc.toNat ≤ 250 ∧ machineConfig.cmpEqual = .literal ∧
    otherConfig.cmpEqual = .corrected := by decide

end Sys2Proof.Tests
end

section
/-! Proofs, family 10_state: what a decoded window encodes, which instructions touch the output and the flags, and the
statements about reset, output and flags that follow. -/

namespace Sys2Proof

/-! ### What a decoded window encodes -/

/-- The decoded instruction is one of the dispatched mnemonic, and the window's operand bytes begin with its own
(30_encoding.md R93, R94). -/
theorem decodeOperands_eq_ok {m : Mnemonic} {b1 b2 : Byte} {i : Instr} (h : decodeOperands m b1 b2 = .ok i) :
    i.mnemonic = m ∧ encodeOperands i <+: [b1, b2] := by
  cases m with
  | ldi =>
    obtain ⟨a, rfl, rfl⟩ := formatRI_eq_ok h
    exact ⟨rfl, List.prefix_rfl⟩
  | prn | push | pop | call | jeq | jne | jmp =>
    obtain ⟨a, rfl, rfl⟩ := formatR_eq_ok h
    exact ⟨rfl, List.prefix_append [regByte a] [b2]⟩
  | add | mul | st | cmp =>
    obtain ⟨a, b, rfl, rfl, rfl⟩ := formatRR_eq_ok h
    exact ⟨rfl, List.prefix_rfl⟩
  | ret | hlt =>
    cases h
    exact ⟨rfl, List.nil_prefix⟩

/-- A window that decodes begins with the encoding of its instruction (30_encoding.md R91, R93). -/
theorem encode_prefix_of_decode {opc : OpcodeMap} {w : Window} {i : Instr} (h : decode opc w = .ok i) :
    encode opc i <+: [w.b0, w.b1, w.b2] := by
  obtain ⟨m, hm, ho⟩ := decode_eq_ok h
  obtain ⟨rfl, hp⟩ := decodeOperands_eq_ok ho
  exact List.cons_prefix_cons.2 ⟨hm, hp⟩

end Sys2Proof

namespace Sys2Proof.Machine

/-! ### The step, over the bytes at the program counter -/

/-- A step that answers a next state raised an error, or ran the instruction whose encoding begins the window at pc
(40_cycle.md R120, R128). -/
theorem stepWith_raise_or_outcome {cfg : Config} {s t : State} (h : stepWith cfg s = .next t) :
    (∃ e, t = raise e s) ∨
    ∃ i, encode cfg.opcode i <+: [s.byteAt s.pc.toNat, s.byteAt (s.pc.toNat + 1), s.byteAt (s.pc.toNat + 2)] ∧
      t = outcomeWith cfg i s := by
  obtain ⟨-, ⟨e, -, ht⟩ | ⟨w, e, -, -, ht⟩ | ⟨w, i, hw, hi, ht⟩⟩ := stepWith_cases h
  · exact .inl ⟨e, ht⟩
  · exact .inl ⟨_, ht⟩
  · obtain ⟨-, rfl⟩ := fetch_eq_ok hw
    exact .inr ⟨i, encode_prefix_of_decode hi, ht⟩

/-- The first byte of a window an encoding begins is the instruction's opcode. -/
theorem opcode_of_encode_prefix {opc : OpcodeMap} {i : Instr} {b0 : Byte} {bs : List Byte}
    (h : encode opc i <+: b0 :: bs) : b0 = opc i.mnemonic :=
  (List.cons_prefix_cons.1 h).1.symm

/-! ### The output -/

/-- No instruction but PRN touches the output (10_state.md R47). -/
theorem outcomeWith_out {cfg : Config} {i : Instr} (hi : ∀ a, i ≠ .prn a) (s : State) :
    (outcomeWith cfg i s).out = s.out := by
  cases i with
  | prn a => exact absurd rfl (hi a)
  | push | call | jeq | jne => simp only [outcomeWith]; split <;> rfl
  | pop | ret => simp only [outcomeWith]; split <;> [rfl; split <;> rfl]
  | ldi | add | mul | st | cmp | jmp | hlt => rfl

/-! ### The flags -/

theorem fetch_setFlags (s : State) (f : Flags) : fetch (s.setFlags f) = fetch s := rfl

theorem State.setFlags_ite (c : Prop) [Decidable c] (s t : State) (f : Flags) :
    (if c then s else t).setFlags f = if c then s.setFlags f else t.setFlags f :=
  apply_ite (State.setFlags · f) c s t

/-- With the flags replaced, an instruction other than CMP does the same and keeps the replaced ones; JEQ and JNE
ask for the same fl.E, and no instruction reads another flag (10_state.md R41, R42; 42_arith.md R167). -/
theorem outcomeWith_setFlags {cfg : Config} {i : Instr} {s : State} {f : Flags} (hi : i.mnemonic ≠ .cmp)
    (he : i.mnemonic = .jeq ∨ i.mnemonic = .jne → f.e = s.fl.e) :
    outcomeWith cfg i (s.setFlags f) = (outcomeWith cfg i s).setFlags f := by
  cases i with
  | cmp => exact absurd rfl hi
  | jeq => simp only [outcomeWith, State.setFlags_ite, State.setFlags_fl, he (.inl rfl)]; rfl
  | jne => simp only [outcomeWith, State.setFlags_ite, State.setFlags_fl, he (.inr rfl)]; rfl
  | push | pop | call | ret => simp only [outcomeWith, State.setFlags_ite]; rfl
  | ldi | prn | add | mul | st | jmp | hlt => rfl

/-- The same for a whole step, whatever the window at pc is. -/
theorem stepWith_setFlags {cfg : Config} {s t : State} {f : Flags} (h : stepWith cfg s = .next t)
    (hc : s.byteAt s.pc.toNat ≠ cfg.opcode .cmp)
    (he : s.byteAt s.pc.toNat = cfg.opcode .jeq ∨ s.byteAt s.pc.toNat = cfg.opcode .jne → f.e = s.fl.e) :
    stepWith cfg (s.setFlags f) = .next (t.setFlags f) := by
  obtain ⟨hr, ⟨e, hf, rfl⟩ | ⟨w, e, hw, hd, rfl⟩ | ⟨w, i, hw, hi, rfl⟩⟩ := stepWith_cases h
  · exact stepWith_of_fetch_error hr hf
  · exact stepWith_of_decode_error hr hw hd
  · obtain ⟨-, rfl⟩ := fetch_eq_ok hw
    have hop : s.byteAt s.pc.toNat = cfg.opcode i.mnemonic := opcode_of_encode_prefix (encode_prefix_of_decode hi)
    have hcmp : i.mnemonic ≠ .cmp := fun hm => hc (hop.trans (congrArg cfg.opcode hm))
    have hjump : i.mnemonic = .jeq ∨ i.mnemonic = .jne → f.e = s.fl.e := fun hm =>
      he (hop ▸ hm.imp (congrArg cfg.opcode) (congrArg cfg.opcode))
    calc stepWith cfg (s.setFlags f)
        = execWith cfg i (s.setFlags f) := stepWith_of_decode hr ((fetch_setFlags s f).trans hw) hi
      _ = .next (outcomeWith cfg i (s.setFlags f)) := execWith_eq cfg i _
      _ = .next ((outcomeWith cfg i s).setFlags f) := by rw [outcomeWith_setFlags hcmp hjump]

/-- A step of an opcode other than CMP's keeps the flags (10_state.md R42): replacing them by themselves changes
nothing, and the step keeps what they are replaced by. -/
theorem stepWith_fl {cfg : Config} {s t : State} (h : stepWith cfg s = .next t)
    (hc : s.byteAt s.pc.toNat ≠ cfg.opcode .cmp) : t.fl = s.fl := by
  have hkept : stepWith cfg s = .next (t.setFlags s.fl) := stepWith_setFlags (f := s.fl) h hc fun _ => rfl
  have ht : t = t.setFlags s.fl := Host.Outcome.next.inj (h.symm.trans hkept)
  exact (congrArg State.fl ht).trans (State.setFlags_fl t s.fl)

/-- A CMP's step is its meaning (45_compare_branch.md R210). -/
theorem stepWith_cmp {cfg : Config} {s : State} {a b : Reg} (hopc : cfg.opcode.wellFormed = true)
    (hr : s.run = .running) (hw : s.windowIs (cfg.opcode .cmp) (regByte a) (regByte b)) :
    stepWith cfg s = execCmpWith cfg a b s :=
  stepWith_of_decode hr (fetch_of_windowIs hw) ((decode_opcode hopc .cmp _ _).trans (formatRR_regByte .cmp a b))

/-! ### The statements -/

/-- Settles O28, by evaluating reset: an empty memory, and one literal vector of registers. -/
theorem resetState : Obligations.ResetState :=
  ⟨rfl, by decide, rfl, rfl, rfl, fun _ => rfl⟩

/-- Settles O21: of all instructions only PRN touches the output, and a raise does not. -/
theorem outputGrowsOnlyByPrn : Obligations.OutputGrowsOnlyByPrn := by
  refine ⟨rfl, fun cfg s t h => ?_⟩
  obtain ⟨e, rfl⟩ | ⟨i, hp, rfl⟩ := stepWith_raise_or_outcome h
  · exact .inl rfl
  · by_cases hprn : ∃ a, i = .prn a
    · obtain ⟨a, rfl⟩ := hprn
      obtain ⟨hop, hrest⟩ := List.cons_prefix_cons.1 hp
      exact .inr ⟨a, hop.symm, (List.cons_prefix_cons.1 hrest).1.symm, rfl⟩
    · exact .inl (outcomeWith_out (not_exists.1 hprn) s)

/-- Settles O23: its clauses are the frame of the flags, CMP's own step, the step with the flags replaced, and that the
trace shows no flag. -/
theorem flagsBelongToCmp : Obligations.FlagsBelongToCmp :=
  ⟨fun _ _ _ => stepWith_fl,
    fun _ _ _ _ hopc hr hw => ⟨_, stepWith_cmp hopc hr hw, rfl⟩,
    fun _ _ _ _ => stepWith_setFlags,
    fun _ _ => rfl⟩

end Sys2Proof.Machine
end

section
/-! Proofs, family 20_memory: what a read of memory answers at any integer address. -/

namespace Sys2Proof.Machine

/-- A read inside the address space gives the byte there (20_memory.md R61). -/
theorem memRead_of_inRange {a : Int} (s : State) (h : inRange a) : memRead s a = .ok (s.byteAt a.toNat) :=
  if_pos h

/-- A read outside the address space raises OutOfRange with the address (20_memory.md R61). -/
theorem memRead_of_not_inRange {a : Int} (s : State) (h : ¬ inRange a) : memRead s a = .error ⟨.outOfRange, a⟩ :=
  if_neg h

/-- Settles O32, by the two answers of a read: inside and outside the address space. -/
theorem memReadIsRangeChecked : Obligations.MemReadIsRangeChecked :=
  fun s _ => ⟨memRead_of_inRange s, memRead_of_not_inRange s⟩

end Sys2Proof.Machine
end

section
/-! Proofs, family 40_cycle: the fetch window, and that an ended engine stays as it is. -/

namespace Sys2Proof.Machine

/-- The machine's step is the step under the chosen configuration (00_scope.md R7). -/
theorem step_eq_stepWith (s : State) : step s = stepWith machineConfig s :=
  congrArg (cycle machineConfig.opcode · s) (funext₂ exec_eq_execWith)

/-- Only a running engine has a next state (40_cycle.md R127). -/
theorem stepWith_ne_next_of_ended {cfg : Config} {s : State} (hs : s.ended) (t : State) : stepWith cfg s ≠ .next t :=
  fun h => hs (stepWith_cases h).1

/-- A run from a state with no step stays there, whatever its bound (40_cycle.md R131, R132). -/
theorem after_eq_self_of_step_ne_next {s : State} (h : ∀ t, step s ≠ .next t) (n : Nat) : State.after n s = s := by
  cases n with
  | zero => rfl
  | succ n =>
    unfold State.after
    split
    · next t ht => exact absurd ht (h t)
    · rfl

/-- Settles O9: the fetch in closed form. -/
theorem fetchReadsThreeBytes : Obligations.FetchReadsThreeBytes :=
  fun _ => fetch_of_le

/-- Settles O13: an ended engine has no step, the machine's own included, so a run from it stays. -/
theorem endedEngineHasNoStep : Obligations.EndedEngineHasNoStep := by
  intro cfg s hs
  have hstep : ∀ t, step s ≠ .next t := fun t => step_eq_stepWith s ▸ stepWith_ne_next_of_ended hs t
  exact ⟨stepWith_ne_next_of_ended hs, after_eq_self_of_step_ne_next hstep⟩

end Sys2Proof.Machine
end

section
/-! Proofs, family 41_load_print: the exceptions every instruction's rule lists, proved once for all mnemonics, and
LDI's own step. -/

namespace Sys2Proof

/-! ### The operand check, against the first bad register of the tables -/

theorem RawInstr.firstBadRegister_gt {i : RawInstr} {r : Byte} (h : i.firstBadRegister = some r) : 7 < r.toNat := by
  rw [firstBadRegister] at h
  simpa using List.find?_some h

/-- Where one operand byte is checked, it is the byte reported (30_encoding.md R96). -/
theorem RawInstr.firstBadRegister_of_one {i : RawInstr} {b1 r : Byte} (hc : i.checkedOperands = [b1])
    (h : i.firstBadRegister = some r) : r = b1 ∧ 7 < b1.toNat := by
  have hr := firstBadRegister_gt h
  rw [firstBadRegister, hc] at h
  obtain rfl : r = b1 := List.mem_singleton.1 (List.mem_of_find?_eq_some h)
  exact ⟨rfl, hr⟩

/-- Where two operand bytes are checked, the second is reported only when the first names a register
(30_encoding.md R96). -/
theorem RawInstr.firstBadRegister_of_two {i : RawInstr} {b1 b2 r : Byte} (hc : i.checkedOperands = [b1, b2])
    (h : i.firstBadRegister = some r) : r = b1 ∧ 7 < b1.toNat ∨ (∃ a, b1 = regByte a) ∧ r = b2 ∧ 7 < b2.toNat := by
  have hr := firstBadRegister_gt h
  rw [firstBadRegister, hc, List.find?_cons] at h
  rcases byte_isReg_or_bad b1 with ⟨a, rfl⟩ | hb
  · rw [decide_eq_false (by rw [regByte_toNat]; omega)] at h
    obtain rfl : r = b2 := List.mem_singleton.1 (List.mem_of_find?_eq_some h)
    exact .inr ⟨⟨a, rfl⟩, rfl, hr⟩
  · rw [decide_eq_true hb] at h
    obtain rfl : b1 = r := Option.some.inj h
    exact .inl ⟨rfl, hb⟩

/-- The decoder's check, operand by operand, refuses by the byte the tables name (30_encoding.md R96, R99). -/
theorem decodeOperands_of_firstBadRegister {m : Mnemonic} {b1 b2 r : Byte}
    (h : (RawInstr.mk m b1 b2).firstBadRegister = some r) : decodeOperands m b1 b2 = .error (.invalidRegister r) := by
  cases m with
  | ldi =>
    obtain ⟨rfl, hb⟩ := RawInstr.firstBadRegister_of_one rfl h
    exact formatRI_bad _ hb b2
  | prn | push | pop | call | jeq | jne | jmp =>
    obtain ⟨rfl, hb⟩ := RawInstr.firstBadRegister_of_one rfl h
    exact formatR_bad _ hb
  | add | mul | st | cmp =>
    obtain ⟨rfl, hb⟩ | ⟨⟨a, rfl⟩, rfl, hb⟩ := RawInstr.firstBadRegister_of_two rfl h
    · exact formatRR_bad_first _ hb b2
    · exact formatRR_bad_second _ a hb
  | ret | hlt => cases h

end Sys2Proof

namespace Sys2Proof.Machine

/-! ### The step from a window of a known mnemonic -/

theorem raises_next_raise (e : Raised) (s : State) : raises (.next (raise e s)) e.kind e.info :=
  ⟨_, _, rfl, rfl, rfl, rfl⟩

theorem stepWith_of_pc_past_top {cfg : Config} {s : State} (hr : s.run = .running) (h1 : 254 ≤ s.pc.toNat)
    (h2 : s.pc.toNat ≤ 256) : stepWith cfg s = .next (raise ⟨.outOfRange, 256⟩ s) := by
  have hinfo : (max 256 s.pc.toNat : Int) = 256 := by omega
  rw [stepWith_of_fetch_error hr (fetch_of_gt (by omega)), hinfo]

theorem stepWith_of_bad_register {cfg : Config} {s : State} {m : Mnemonic} {b1 b2 r : Byte}
    (hopc : cfg.opcode.wellFormed = true) (hr : s.run = .running) (hw : s.windowIs (cfg.opcode m) b1 b2)
    (hb : (RawInstr.mk m b1 b2).firstBadRegister = some r) :
    stepWith cfg s = .next (raise ⟨.invalidRegister, r.toNat⟩ s) :=
  stepWith_of_decode_error hr (fetch_of_windowIs hw)
    ((decode_opcode hopc m b1 b2).trans (decodeOperands_of_firstBadRegister hb))

theorem stepWith_of_operands {cfg : Config} {s : State} {m : Mnemonic} {b1 b2 : Byte} {i : Instr}
    (hopc : cfg.opcode.wellFormed = true) (hr : s.run = .running) (hw : s.windowIs (cfg.opcode m) b1 b2)
    (hi : decodeOperands m b1 b2 = .ok i) : stepWith cfg s = .next (outcomeWith cfg i s) :=
  (stepWith_of_decode hr (fetch_of_windowIs hw) ((decode_opcode hopc m b1 b2).trans hi)).trans (execWith_eq cfg i s)

/-- The exceptions of the fetch and of the operand check hold for every mnemonic alike (40_cycle.md R122, R125). -/
theorem fetchAndOperandExceptions_of_running {cfg : Config} {s : State} (hopc : cfg.opcode.wellFormed = true)
    (hr : s.run = .running) (m : Mnemonic) : fetchAndOperandExceptions cfg m s := by
  constructor
  · intro h1 h2
    rw [stepWith_of_pc_past_top hr h1 h2]
    exact raises_next_raise ⟨.outOfRange, 256⟩ s
  · intro b1 b2 r hw hb
    rw [stepWith_of_bad_register hopc hr hw hb]
    exact raises_next_raise ⟨.invalidRegister, r.toNat⟩ s

theorem stepWith_ldi {cfg : Config} {s : State} {a : Reg} {imm : Byte} (hopc : cfg.opcode.wellFormed = true)
    (hr : s.run = .running) (hw : s.windowIs (cfg.opcode .ldi) (regByte a) imm) :
    stepWith cfg s = .next ((s.setReg a imm).advance 3) :=
  stepWith_of_operands hopc hr hw (formatRI_regByte .ldi a imm)

/-! ### Frames of a register write -/

theorem State.regsAsBefore_setReg (s : State) (a : Reg) (v : Byte) : s.regsAsBefore (s.setReg a v) [a] :=
  fun _ hr => s.reg_setReg_other v (List.ne_of_not_mem_cons hr)

/-! ### The statement -/

/-- Settles O36: the exceptions are those of every mnemonic, and LDI's step is one register write and an advance. -/
theorem ldiFollowsItsRule : Obligations.LdiFollowsItsRule := by
  intro cfg s hopc hr
  refine ⟨fetchAndOperandExceptions_of_running hopc hr .ldi, fun a imm hw => ?_⟩
  have hpc : s.pc.toNat + 3 < 512 := by have := hw.1; omega
  exact ⟨_, stepWith_ldi hopc hr hw, s.reg_setReg_self a imm, s.regsAsBefore_setReg a imm, fun _ _ => rfl, rfl, rfl, rfl,
    (s.setReg a imm).advance_pc_toNat hpc⟩

end Sys2Proof.Machine
end

section
/-! Proofs, family 42_arith: the ALU's sum and product as numbers, and ADD's own step. -/

namespace Sys2Proof.Machine

/-! ### The ALU -/

/-- The sum wraps at 8 bits (42_arith.md R161). -/
@[simp] theorem aluAdd_toNat (a b : Byte) : (aluAdd a b).toNat = (a.toNat + b.toNat) % 256 :=
  trunc8_toNat (a.toNat + b.toNat)

/-- The product wraps at 8 bits (42_arith.md R162). -/
@[simp] theorem aluMul_toNat (a b : Byte) : (aluMul a b).toNat = (a.toNat * b.toNat) % 256 :=
  trunc8_toNat (a.toNat * b.toNat)

/-! ### ADD's step -/

/-- ADD writes the sum of two registers, both read before the write (42_arith.md R165). -/
theorem stepWith_add {cfg : Config} {s : State} {a b : Reg} (hopc : cfg.opcode.wellFormed = true)
    (hr : s.run = .running) (hw : s.windowIs (cfg.opcode .add) (regByte a) (regByte b)) :
    stepWith cfg s = .next ((s.setReg a (aluAdd (s.reg a) (s.reg b))).advance 3) :=
  stepWith_of_operands hopc hr hw (formatRR_regByte .add a b)

/-! ### The statements -/

/-- Settles O34: each of the two results is a truncation to 8 bits. -/
theorem aluWrapsAtEightBits : Obligations.AluWrapsAtEightBits :=
  fun a b => ⟨aluAdd_toNat a b, aluMul_toNat a b⟩

/-- Settles O38: the exceptions are those of every mnemonic, and ADD's step writes the wrapped sum to one register and
advances. -/
theorem addFollowsItsRule : Obligations.AddFollowsItsRule := by
  intro cfg s hopc hr
  refine ⟨fetchAndOperandExceptions_of_running hopc hr .add, fun a b hw => ?_⟩
  have hpc : s.pc.toNat + 3 < 512 := by have := hw.1; omega
  refine ⟨_, stepWith_add hopc hr hw, ?_, s.regsAsBefore_setReg a _, fun _ _ => rfl, rfl, rfl, rfl,
    (s.setReg a _).advance_pc_toNat hpc⟩
  rw [State.reg_advance, State.reg_setReg_self, aluAdd_toNat]

end Sys2Proof.Machine
end

section
/-! Proofs, family 43_memory_stack: ST's own step, and what its one byte write and its advance leave. -/

namespace Sys2Proof.Machine

/-! ### The byte write -/

theorem State.byteAt_setByte_self {s : State} (hm : s.mem.wf) (a : Nat) (v : Byte) : (s.setByte a v).byteAt a = v := by
  rw [State.byteAt_setByte hm, if_pos rfl]

theorem State.memAsBefore_setByte (s : State) (a : Nat) (v : Byte) : s.memAsBefore (s.setByte a v) [a] :=
  fun _ hk => s.byteAt_setByte_other v (List.ne_of_not_mem_cons hk)

/-! ### ST's step -/

/-- ST writes x[B] at the address x[A]; a register's byte is always in the address space, so the write cannot raise
(43_memory_stack.md R180). -/
theorem stepWith_st {cfg : Config} {s : State} {a b : Reg} (hopc : cfg.opcode.wellFormed = true)
    (hr : s.run = .running) (hw : s.windowIs (cfg.opcode .st) (regByte a) (regByte b)) :
    stepWith cfg s = .next ((s.setByte (s.reg a).toNat (s.reg b)).advance (stAmount cfg.stAdvance)) :=
  stepWith_of_operands hopc hr hw (formatRR_regByte .st a b)

theorem stAmount_le_three (adv : StAdvance) : stAmount adv ≤ 3 := by
  cases adv <;> decide

/-- After a fetch either ST_ADVANCE fits the pc (10_state.md R36; 43_memory_stack.md R180). -/
theorem State.advance_stAmount_pc_toNat {s : State} (h : s.pc.toNat ≤ 253) (adv : StAdvance) :
    (s.advance (stAmount adv)).pc.toNat = s.pc.toNat + stAmount adv :=
  s.advance_pc_toNat (by have := stAmount_le_three adv; omega)

/-! ### The statement -/

/-- Settles O39: the exceptions are those of every mnemonic, and ST's step is one byte write and an advance by the
configured amount. -/
theorem stFollowsItsRule : Obligations.StFollowsItsRule := by
  intro cfg s hopc hr
  refine ⟨fetchAndOperandExceptions_of_running hopc hr .st, fun a b hm hw => ?_⟩
  have hpc := (s.setByte (s.reg a).toNat (s.reg b)).advance_stAmount_pc_toNat hw.1 cfg.stAdvance
  exact ⟨_, stepWith_st hopc hr hw, State.byteAt_setByte_self hm _ _, s.memAsBefore_setByte _ _, fun _ _ => rfl,
    rfl, rfl, rfl, fun htwo => hpc.trans (by rw [htwo]; rfl), fun hthree => hpc.trans (by rw [hthree]; rfl)⟩

end Sys2Proof.Machine
end

section
/-! Proofs, family 45_compare_branch: each flag of the ALU's compare as a relation of its operands, and CMP's own step. -/

namespace Sys2Proof.Machine

/-! ### The flags of a compare -/

/-- G is the unsigned order, whatever the equal rule (42_arith.md R160, R164). -/
@[simp] theorem aluCompare_g_iff (rule : CmpEqualRule) (a b : Byte) :
    (aluCompare rule a b).g = true ↔ a.toNat > b.toNat :=
  decide_eq_true_iff

/-- L is the unsigned order, whatever the equal rule (42_arith.md R160, R164). -/
@[simp] theorem aluCompare_l_iff (rule : CmpEqualRule) (a b : Byte) :
    (aluCompare rule a b).l = true ↔ a.toNat < b.toNat :=
  decide_eq_true_iff

/-- The source's E is true on greater too: it only denies less (42_arith.md R164). -/
@[simp] theorem aluCompare_literal_e_iff (a b : Byte) :
    (aluCompare .literal a b).e = true ↔ ¬ a.toNat < b.toNat := by
  rw [aluCompare, equalFlag, Bool.not_eq_true', decide_eq_false_iff_not]

/-- The corrected E is equality (42_arith.md R164). -/
@[simp] theorem aluCompare_corrected_e_iff (a b : Byte) : (aluCompare .corrected a b).e = true ↔ a = b :=
  decide_eq_true_iff.trans BitVec.toNat_inj

/-! ### The statement -/

/-- Settles O40: the exceptions are those of every mnemonic, and CMP's step replaces the flags by the compare of two
registers and advances. -/
theorem cmpFollowsItsRule : Obligations.CmpFollowsItsRule := by
  intro cfg s hopc hr
  refine ⟨fetchAndOperandExceptions_of_running hopc hr .cmp, fun a b hw => ?_⟩
  have hpc : s.pc.toNat + 3 < 512 := by have := hw.1; omega
  refine ⟨_, stepWith_cmp hopc hr hw, rfl, aluCompare_g_iff _ _ _, aluCompare_l_iff _ _ _, fun hlit => ?_, fun hcor => ?_,
    fun _ _ => rfl, fun _ _ => rfl, rfl, rfl, (s.setFlags _).advance_pc_toNat hpc⟩
  · rw [State.advance_fl, State.setFlags_fl, hlit, aluCompare_literal_e_iff]
  · rw [State.advance_fl, State.setFlags_fl, hcor, aluCompare_corrected_e_iff]

end Sys2Proof.Machine
end

section
/-! Proofs, family other, the encoding: the decoder is a left inverse of the encoder, every window has its outcome, and
the bytes a format ignores. -/

namespace Sys2Proof

/-! ### Decoding an encoding -/

theorem Window.ofBytes_cons (b0 : Byte) (bs : List Byte) :
    Window.ofBytes (b0 :: bs) = ⟨b0, bs.getD 0 0, bs.getD 1 0⟩ := by
  rcases bs with - | ⟨b1, - | ⟨b2, bs⟩⟩ <;> rfl

/-- An instruction's own operand bytes decode to it, whatever follows them (30_encoding.md R93, R97). -/
theorem decodeOperands_encodeOperands (i : Instr) (tail : List Byte) :
    decodeOperands i.mnemonic ((encodeOperands i ++ tail).getD 0 0) ((encodeOperands i ++ tail).getD 1 0) = .ok i := by
  cases i with
  | ldi a imm => exact formatRI_regByte .ldi a imm
  | prn a | push a | pop a | call a | jeq a | jne a | jmp a => exact formatR_regByte _ a
  | add a b | mul a b | st a b | cmp a b => exact formatRR_regByte _ a b
  | ret | hlt => rfl

/-! ### The outcome of a window -/

/-- Where the tables find no bad register, every checked operand byte names a register (30_encoding.md R96, R99). -/
theorem RawInstr.isReg_of_firstBadRegister_eq_none {i : RawInstr} (h : i.firstBadRegister = none) {b : Byte}
    (hb : b ∈ i.checkedOperands) : ∃ a, b = regByte a := by
  have hle : ¬ 7 < b.toNat := by simpa using List.find?_eq_none.1 h b hb
  exact (byte_isReg_or_bad b).resolve_right hle

/-- The decoder's check passes where the tables' check does (30_encoding.md R96, R99). -/
theorem decodeOperands_of_firstBadRegister_eq_none {m : Mnemonic} {b1 b2 : Byte}
    (h : (RawInstr.mk m b1 b2).firstBadRegister = none) : ∃ i, decodeOperands m b1 b2 = .ok i := by
  have hreg : ∀ b ∈ (RawInstr.mk m b1 b2).checkedOperands, ∃ a, b = regByte a :=
    fun _ => RawInstr.isReg_of_firstBadRegister_eq_none h
  cases m with
  | ldi =>
    obtain ⟨a, rfl⟩ := hreg b1 (.head _)
    exact ⟨_, formatRI_regByte .ldi a b2⟩
  | prn | push | pop | call | jeq | jne | jmp =>
    obtain ⟨a, rfl⟩ := hreg b1 (.head _)
    exact ⟨_, formatR_regByte _ a⟩
  | add | mul | st | cmp =>
    obtain ⟨a, rfl⟩ := hreg b1 (.head _)
    obtain ⟨b, rfl⟩ := hreg b2 (.tail _ (.head _))
    exact ⟨_, formatRR_regByte _ a b⟩
  | ret | hlt => exact ⟨_, rfl⟩

/-- The decoded instruction keeps the checked operand bytes, and LDI its immediate (30_encoding.md R94). -/
theorem raw_of_decodeOperands {m : Mnemonic} {b1 b2 : Byte} {i : Instr} (h : decodeOperands m b1 b2 = .ok i) :
    i.raw.checkedOperands = (RawInstr.mk m b1 b2).checkedOperands ∧ (m = .ldi → i.raw.b2 = b2) := by
  cases m with
  | ldi =>
    obtain ⟨a, rfl, rfl⟩ := formatRI_eq_ok h
    exact ⟨rfl, fun _ => rfl⟩
  | prn | push | pop | call | jeq | jne | jmp =>
    obtain ⟨a, rfl, rfl⟩ := formatR_eq_ok h
    exact ⟨rfl, nofun⟩
  | add | mul | st | cmp =>
    obtain ⟨a, b, rfl, rfl, rfl⟩ := formatRR_eq_ok h
    exact ⟨rfl, nofun⟩
  | ret | hlt =>
    cases h
    exact ⟨rfl, nofun⟩

/-- An instruction's register operands are checked indices already (30_encoding.md R99). -/
theorem Instr.wellFormed_eq_true (i : Instr) : i.wellFormed = true := by
  rw [wellFormed, RawInstr.wellFormed, List.all_eq_true]
  have hreg (r : Reg) : decide ((regByte r).toNat ≤ 7) = true := by
    rw [regByte_toNat]
    exact decide_eq_true (by omega)
  cases i with
  | ldi a imm => exact List.forall_mem_singleton.2 (hreg a)
  | prn a | push a | pop a | call a | jeq a | jne a | jmp a => exact List.forall_mem_singleton.2 (hreg a)
  | add a b | mul a b | st a b | cmp a b =>
    exact List.forall_mem_cons.2 ⟨hreg a, List.forall_mem_singleton.2 (hreg b)⟩
  | ret | hlt => exact List.forall_mem_nil _

/-- A window the decoder refuses has an opcode of no instruction, or a checked operand byte above 7 (30_encoding.md
R104). -/
theorem decode_eq_error {opc : OpcodeMap} {w : Window} {e : DecodeError} (h : decode opc w = .error e) :
    (e = .invalidOpcode w.b0 ∧ ∀ m, opc m ≠ w.b0) ∨ ∃ b, e = .invalidRegister b ∧ 7 < b.toNat := by
  unfold decode at h
  split at h
  · next hd =>
    cases h
    exact .inl ⟨rfl, dispatch_eq_none_iff.1 hd⟩
  · next m hd =>
    cases hb : (RawInstr.mk m w.b1 w.b2).firstBadRegister with
    | none =>
      obtain ⟨i, hi⟩ := decodeOperands_of_firstBadRegister_eq_none hb
      rw [hi] at h
      cases h
    | some r =>
      rw [decodeOperands_of_firstBadRegister hb] at h
      cases h
      exact .inr ⟨r, rfl, RawInstr.firstBadRegister_gt hb⟩

/-! ### The bytes a format ignores -/

theorem decodeOperands_of_format_n {m : Mnemonic} (hm : m ∈ [Mnemonic.ret, .hlt]) (b1 b2 c1 c2 : Byte) :
    decodeOperands m b1 b2 = decodeOperands m c1 c2 := by
  cases m with
  | ret | hlt => rfl
  | ldi | prn | add | mul | st | push | pop | call | cmp | jeq | jne | jmp => simp at hm

theorem decodeOperands_of_format_r {m : Mnemonic}
    (hm : m ∈ [Mnemonic.prn, .push, .pop, .call, .jeq, .jne, .jmp]) (b1 b2 c2 : Byte) :
    decodeOperands m b1 b2 = decodeOperands m b1 c2 := by
  cases m with
  | prn | push | pop | call | jeq | jne | jmp => rfl
  | ldi | add | mul | st | ret | cmp | hlt => simp at hm

/-! ### How many bytes a legal map leaves illegal -/

theorem dispatch_isSome_iff {opc : OpcodeMap} {b0 : Byte} : (dispatch opc b0).isSome = true ↔ ∃ m, opc m = b0 := by
  simp [← not_iff_not, dispatch_eq_none_iff]

/-- The assigned bytes of a legal map are its 14 opcodes, each once (30_encoding.md R92). -/
theorem length_filter_assigned {opc : OpcodeMap} (hopc : opc.wellFormed = true) :
    ((List.range 256).filter fun n => (dispatch opc (BitVec.ofNat 8 n)).isSome).length = 14 := by
  have hinj : Function.Injective fun m => (opc m).toNat := fun m n h =>
    OpcodeMap.injective_of_wellFormed hopc (BitVec.eq_of_toNat_eq h)
  have hperm : ((List.range 256).filter fun n => (dispatch opc (BitVec.ofNat 8 n)).isSome).Perm
      (Mnemonic.all.map fun m => (opc m).toNat) := by
    rw [List.perm_ext_iff_of_nodup (List.nodup_range.filter _) (List.Nodup.map hinj (by decide))]
    intro n
    rw [List.mem_filter, List.mem_range, dispatch_isSome_iff, List.mem_map]
    constructor
    · rintro ⟨hn, m, hm⟩
      exact ⟨m, m.mem_all, by rw [hm, BitVec.toNat_ofNat, Nat.mod_eq_of_lt hn]⟩
    · rintro ⟨m, -, rfl⟩
      exact ⟨(opc m).isLt, m, by rw [BitVec.ofNat_toNat, BitVec.setWidth_eq]⟩
  exact hperm.length_eq

/-- Every legal map leaves the other 242 bytes illegal (30_encoding.md R98). -/
theorem length_filter_unassigned {opc : OpcodeMap} (hopc : opc.wellFormed = true) :
    ((List.range 256).filter fun n => (dispatch opc (BitVec.ofNat 8 n)).isNone).length = 242 := by
  have hsum := List.length_eq_length_filter_add (l := List.range 256)
    fun n => (dispatch opc (BitVec.ofNat 8 n)).isSome
  simp only [Option.not_isSome, List.length_range, length_filter_assigned hopc] at hsum
  omega

/-! ### The statements -/

/-- Settles O3: the opcode byte dispatches to the instruction's mnemonic, and its operand bytes decode by their format. -/
theorem decodeOfEncode : Obligations.DecodeOfEncode := by
  intro opc hopc i tail
  rw [encode, List.cons_append, Window.ofBytes_cons, decode_opcode hopc]
  exact decodeOperands_encodeOperands i tail

/-- Settles O4: a list that begins another is what taking its length from the other gives. -/
theorem encodeOfDecode : Obligations.EncodeOfDecode :=
  fun _ _ _ h => List.prefix_iff_eq_take.1 (encode_prefix_of_decode h)

/-- Settles O5: the decoder's three outcomes are those of dispatch and of the tables' operand check. -/
theorem everyWindowHasItsOutcome : Obligations.EveryWindowHasItsOutcome := by
  rintro opc ⟨b0, b1, b2⟩ hopc
  refine ⟨fun hno => decode_unassigned hno b1 b2, ?_⟩
  rintro m rfl
  rw [decode_opcode hopc]
  refine ⟨fun r => decodeOperands_of_firstBadRegister, fun hb => ?_⟩
  obtain ⟨i, hi⟩ := decodeOperands_of_firstBadRegister_eq_none hb
  obtain ⟨hraw, himm⟩ := raw_of_decodeOperands hi
  exact ⟨i, hi, i.wellFormed_eq_true, (decodeOperands_eq_ok hi).1, hraw, himm⟩

/-- Settles O6: after dispatch only the format reads the operand bytes. -/
theorem ignoredBytesDoNotMatter : Obligations.IgnoredBytesDoNotMatter := by
  intro opc m b1 b2 c1 c2 hopc
  simp only [decode_opcode hopc]
  exact ⟨fun hm => decodeOperands_of_format_n hm b1 b2 c1 c2, fun hm => decodeOperands_of_format_r hm b1 b2 c2⟩

theorem defaultOpcode_wellFormed : OpcodeMap.wellFormed defaultOpcode = true := by decide

/-- Settles O1: the default map's legality is a closed fact, and the rest holds of every legal map. -/
theorem defaultOpcodesAreLegal : Obligations.DefaultOpcodesAreLegal :=
  ⟨defaultOpcode_wellFormed, fun _ hopc => decode_unassigned (OpcodeMap.ne_zero_of_wellFormed hopc),
    length_filter_unassigned defaultOpcode_wellFormed⟩

/-- Settles O2: ten closed windows, decoded. -/
theorem writtenWordsDecode : Obligations.WrittenWordsDecode := by
  unfold Obligations.WrittenWordsDecode
  decide

end Sys2Proof
end

section
/-! Proofs, family other, the cycle: the step of a running engine, what an error it raises leaves, and where errors and
HALTED come from. -/

namespace Sys2Proof.Machine

/-! ### The step of a decoded window -/

/-- The four instructions that read a configuration apart, a meaning is the same under every one (00_scope.md R7). -/
theorem execWith_eq_exec {i : Instr} (hi : i.raw.m ∉ [Mnemonic.st, .pop, .ret, .cmp]) (cfg : Config) (s : State) :
    execWith cfg i s = exec i s := by
  cases i with
  | st | pop | ret | cmp => simp [Instr.raw] at hi
  | ldi | prn | add | mul | push | call | jeq | jne | jmp | hlt => rfl

theorem exec_eq_next (i : Instr) (s : State) : exec i s = .next (outcomeWith machineConfig i s) :=
  (exec_eq_execWith i s).trans (execWith_eq machineConfig i s)

theorem step_of_decode {s : State} {w : Window} {i : Instr} (hr : s.run = .running) (hw : fetch s = .ok w)
    (hi : decode machineConfig.opcode w = .ok i) : step s = exec i s := by
  rw [step_eq_stepWith, stepWith_of_decode hr hw hi, exec_eq_execWith]

/-- A running engine has a next state whatever it fetches (40_cycle.md R120, R128). -/
theorem exists_stepWith_eq_next {s : State} (hr : s.run = .running) (cfg : Config) : ∃ t, stepWith cfg s = .next t := by
  cases hw : fetch s with
  | error e => exact ⟨_, stepWith_of_fetch_error hr hw⟩
  | ok w =>
    cases hi : decode cfg.opcode w with
    | error e => exact ⟨_, stepWith_of_decode_error hr hw hi⟩
    | ok i => exact ⟨_, (stepWith_of_decode hr hw hi).trans (execWith_eq cfg i s)⟩

theorem stepWith_of_unassigned {cfg : Config} {s : State} {b0 b1 b2 : Byte} (hr : s.run = .running)
    (hw : s.windowIs b0 b1 b2) (hno : ∀ m, cfg.opcode m ≠ b0) :
    stepWith cfg s = .next (raise ⟨.invalidOpcode, b0.toNat⟩ s) :=
  stepWith_of_decode_error hr (fetch_of_windowIs hw) (decode_unassigned hno b1 b2)

/-! ### Raised errors -/

/-- The record of a raise is made of its error and the state's pc (60_exceptions.md R243). -/
theorem eq_record_of_raise_run {x : Raised} {s : State} {e : Err} (h : (raise x s).run = .faulted e) :
    e = ⟨x.kind, x.kind.code, x.info, s.pc⟩ :=
  (RunState.faulted.inj h).symm

/-- A step that ends Faulted raised an error in the state before it (60_exceptions.md R241, R242). -/
theorem eq_raise_of_stepWith_faulted {cfg : Config} {s t : State} {e : Err} (h : stepWith cfg s = .next t)
    (ht : t.run = .faulted e) : ∃ x, t = raise x s := by
  obtain ⟨hr, ⟨x, -, rfl⟩ | ⟨w, x, -, -, rfl⟩ | ⟨w, i, -, -, rfl⟩⟩ := stepWith_cases h
  · exact ⟨x, rfl⟩
  · exact ⟨_, rfl⟩
  · exact outcomeWith_faulted hr ht

/-! ### The run state a meaning leaves -/

/-- A meaning halts the engine as HLT, raises an error, or leaves the run state alone (40_cycle.md R126, 46_halt.md
R231). -/
theorem outcomeWith_run (cfg : Config) (i : Instr) (s : State) :
    i = .hlt ∨ (∃ x, outcomeWith cfg i s = raise x s) ∨ (outcomeWith cfg i s).run = s.run := by
  cases i with
  | hlt => exact .inl rfl
  | push | call =>
    simp only [outcomeWith]
    split
    · exact .inr (.inl ⟨_, rfl⟩)
    · exact .inr (.inr rfl)
  | pop | ret =>
    simp only [outcomeWith]
    split
    · exact .inr (.inl ⟨_, rfl⟩)
    · split
      · exact .inr (.inr rfl)
      · exact .inr (.inl ⟨_, rfl⟩)
  | jeq | jne =>
    simp only [outcomeWith]
    split <;> exact .inr (.inr rfl)
  | ldi | prn | add | mul | st | cmp | jmp => exact .inr (.inr rfl)

theorem eq_hlt_of_outcomeWith_halted {cfg : Config} {i : Instr} {s : State} (hr : s.run = .running)
    (h : (outcomeWith cfg i s).run = .halted) : i = .hlt := by
  obtain hi | ⟨x, hx⟩ | hrun := outcomeWith_run cfg i s
  · exact hi
  · rw [hx] at h
    cases h
  · rw [hrun, hr] at h
    cases h

/-- A choice of a raise or of a running state is Faulted by that raise only. -/
theorem faulted_of_ite_raise {c : Prop} [Decidable c] {x : Raised} {s u : State} {e : Err}
    (h : (if c then raise x s else u).run = .faulted e) (hu : u.run = .running) :
    c ∧ e = ⟨x.kind, x.kind.code, x.info, s.pc⟩ := by
  split at h
  · exact ⟨‹c›, eq_record_of_raise_run h⟩
  · rw [hu] at h
    cases h

/-- POP and RET, whose shape this is, are Faulted by the underflow check or, where it passes, by the stack bound
(43_memory_stack.md R184, R187; 60_exceptions.md R248). -/
theorem faulted_of_ite_raise_ite_raise {c d : Prop} [Decidable c] [Decidable d] {x y : Raised} {s u : State} {e : Err}
    (h : (if c then raise x s else if d then u else raise y s).run = .faulted e) (hu : u.run = .running) :
    c ∧ e = ⟨x.kind, x.kind.code, x.info, s.pc⟩ ∨ ¬ d ∧ e = ⟨y.kind, y.kind.code, y.info, s.pc⟩ := by
  split at h
  · exact .inl ⟨‹c›, eq_record_of_raise_run h⟩
  · rw [← ite_not] at h
    exact .inr (faulted_of_ite_raise h hu)

theorem eq_255_of_not_lt {v : Byte} (h : ¬ v.toNat < 255) : v = 255 :=
  BitVec.eq_of_toNat_eq (by have := v.isLt; simp; omega)

/-! ### The statements -/

/-- Settles O7: the window at pc is the one the fetch reads. -/
theorem stepRunsDecodedInstruction : Obligations.StepRunsDecodedInstruction :=
  fun _ _ _ _ _ hr hw => step_of_decode hr (fetch_of_windowIs hw)

/-- Settles O8, by the three comparisons of the chosen configuration with the others. -/
theorem stepIsTheChosenConfiguration : Obligations.StepIsTheChosenConfiguration :=
  ⟨step_eq_stepWith, exec_eq_execWith, fun cfg _ s hi => execWith_eq_exec hi cfg s⟩

/-- Settles O10: the raise of the fetch, its record written out. -/
theorem fetchPastTheTopRaises : Obligations.FetchPastTheTopRaises :=
  fun _ _ => stepWith_of_pc_past_top

/-- Settles O11: dispatch refuses a byte of no instruction, and 0x00 is one under a legal map. -/
theorem unassignedOpcodeRaises : Obligations.UnassignedOpcodeRaises := by
  intro cfg s b0 b1 b2 hr hw
  refine ⟨stepWith_of_unassigned hr hw, ?_⟩
  rintro hopc rfl
  exact stepWith_of_unassigned hr hw (OpcodeMap.ne_zero_of_wellFormed hopc)

/-- Settles O12: the raise of the operand check, its record written out. -/
theorem badRegisterRaises : Obligations.BadRegisterRaises :=
  fun _ _ _ _ _ _ => stepWith_of_bad_register

/-- Settles O14: fetch error, refused window and decoded instruction each have a next state. -/
theorem runningEngineAlwaysSteps : Obligations.RunningEngineAlwaysSteps :=
  fun cfg _ hr => exists_stepWith_eq_next hr cfg

/-- Settles O15: a step that ends Faulted is a raise, and a raise writes the run state only. -/
theorem errorsArePrecise : Obligations.ErrorsArePrecise := by
  intro cfg s t e h ht
  obtain ⟨x, rfl⟩ := eq_raise_of_stepWith_faulted h ht
  obtain rfl := eq_record_of_raise_run ht
  exact ⟨rfl, rfl, rfl⟩

/-- Settles O16: of all outcomes of a step only the meaning of HLT is Halted, and HLT's opcode decodes whatever follows
it. -/
theorem onlyHltEndsCleanly : Obligations.OnlyHltEndsCleanly := by
  intro cfg s hopc hr
  refine ⟨fun t h ht => ?_, fun hpc hop => ?_⟩
  · obtain ⟨-, ⟨x, -, rfl⟩ | ⟨w, x, -, -, rfl⟩ | ⟨w, i, hw, hi, rfl⟩⟩ := stepWith_cases h
    · cases ht
    · cases ht
    · obtain rfl := eq_hlt_of_outcomeWith_halted hr ht
      obtain ⟨hpc, rfl⟩ := fetch_eq_ok hw
      exact ⟨hpc, opcode_of_encode_prefix (encode_prefix_of_decode hi), rfl⟩
  · exact stepWith_of_operands hopc hr ⟨hpc, hop, rfl, rfl⟩ rfl

/-- Settles O17: the closed form of every meaning has a raise at the stack bounds and at the underflow check, and
nowhere else. -/
theorem handlersRaiseOnlyAtTheStack : Obligations.HandlersRaiseOnlyAtTheStack := by
  intro cfg i s t e hr h ht
  rw [execWith_eq] at h
  obtain rfl := Host.Outcome.next.inj h
  cases i with
  | push a =>
    obtain ⟨hsp, rfl⟩ := faulted_of_ite_raise ht hr
    exact .inl ⟨rfl, rfl, hsp, a, .inl rfl⟩
  | call a =>
    obtain ⟨hsp, rfl⟩ := faulted_of_ite_raise ht hr
    exact .inl ⟨rfl, rfl, hsp, a, .inr rfl⟩
  | pop a =>
    obtain ⟨⟨hcheck, hsp⟩, rfl⟩ | ⟨htop, rfl⟩ := faulted_of_ite_raise_ite_raise ht hr
    · exact .inr (.inr ⟨rfl, rfl, hcheck, hsp, a, .inr rfl⟩)
    · refine .inr (.inl ⟨rfl, rfl, .inr ?_⟩)
      have hbase := eq_255_of_not_lt htop
      by_cases ha : a = SP
      · rw [popBase, if_pos ha] at hbase
        exact .inr ⟨ha ▸ rfl, hbase⟩
      · rw [popBase, if_neg ha] at hbase
        exact .inl ⟨a, rfl, ha, hbase⟩
  | ret =>
    obtain ⟨⟨hcheck, hsp⟩, rfl⟩ | ⟨htop, rfl⟩ := faulted_of_ite_raise_ite_raise ht hr
    · exact .inr (.inr ⟨rfl, rfl, hcheck, hsp, SP, .inl rfl⟩)
    · exact .inr (.inl ⟨rfl, rfl, .inl ⟨rfl, eq_255_of_not_lt htop⟩⟩)
  | hlt => cases ht
  | jeq | jne =>
    simp only [outcomeWith] at ht
    split at ht <;> cases hr.symm.trans ht
  | ldi | prn | add | mul | st | cmp | jmp => cases hr.symm.trans ht

end Sys2Proof.Machine
end

section
/-! Proofs, family other, what every step keeps: where memory changes, the invariant, and that fl.G and fl.L cannot be
observed. -/

namespace Sys2Proof.Machine

/-! ### The memory a meaning leaves -/

/-- A meaning writes memory as an ST, one byte at x[A], as a PUSH or CALL, one byte below x[7], or not at all
(20_memory.md R63; 43_memory_stack.md R180, R182). -/
theorem outcomeWith_mem (cfg : Config) (i : Instr) (s : State) :
    (outcomeWith cfg i s).mem = s.mem ∨
    (∃ a b, i = .st a b ∧ (outcomeWith cfg i s).mem = s.mem.write (s.reg a).toNat (s.reg b)) ∨
    (∃ a v, (i = .push a ∨ i = .call a) ∧ s.reg SP ≠ 0 ∧
      (outcomeWith cfg i s).mem = s.mem.write ((s.reg SP).toNat - 1) v) := by
  cases i with
  | st a b => exact .inr (.inl ⟨a, b, rfl, rfl⟩)
  | push a =>
    simp only [outcomeWith]
    split
    · exact .inl rfl
    · exact .inr (.inr ⟨a, _, .inl rfl, ‹_›, rfl⟩)
  | call a =>
    simp only [outcomeWith]
    split
    · exact .inl rfl
    · exact .inr (.inr ⟨a, _, .inr rfl, ‹_›, rfl⟩)
  | pop | ret => simp only [outcomeWith]; split <;> [exact .inl rfl; split <;> exact .inl rfl]
  | jeq | jne => simp only [outcomeWith]; split <;> exact .inl rfl
  | ldi | prn | add | mul | cmp | jmp | hlt => exact .inl rfl

theorem outcomeWith_mem_wf {s : State} (hm : s.mem.wf) (cfg : Config) (i : Instr) : (outcomeWith cfg i s).mem.wf := by
  obtain h | ⟨a, b, -, h⟩ | ⟨a, v, -, -, h⟩ := outcomeWith_mem cfg i s
  · exact h ▸ hm
  · exact h ▸ Memory.wf_write hm (s.reg a).isLt _
  · have hlt : (s.reg SP).toNat - 1 < 256 := by have := (s.reg SP).isLt; omega
    exact h ▸ Memory.wf_write hm hlt v

/-- The one address a write changes reads differently after it (20_memory.md R62). -/
theorem Memory.eq_of_read_write_ne {m : Memory} {a k : Nat} {v : Byte} (h : (m.write a v).read k ≠ m.read k) : k = a :=
  not_imp_comm.1 (Memory.read_write_other m v) h

/-! ### The pc a meaning leaves -/

/-- After a fetch an advance by an instruction's length is exact (10_state.md R36, R38). -/
theorem State.advance_pc_toNat_of_le {s : State} (h : s.pc.toNat ≤ 253) {n : Nat} (hn : n ≤ 3) :
    (s.advance n).pc.toNat = s.pc.toNat + n :=
  s.advance_pc_toNat (by omega)

theorem State.advance_pc_le {s : State} (h : s.pc.toNat ≤ 253) {n : Nat} (hn : n ≤ 3) : (s.advance n).pc.toNat ≤ 256 := by
  rw [State.advance_pc_toNat_of_le h hn]
  omega

theorem State.jump_pc_le (s : State) (t : Byte) : (s.jump t).pc.toNat ≤ 256 := by
  rw [State.jump_pc_toNat]
  exact t.isLt.le

/-- After a fetch every advance and every jump stays at 256 or below (10_state.md R36). -/
theorem outcomeWith_pc_le {s : State} (h : s.pc.toNat ≤ 253) (cfg : Config) (i : Instr) :
    (outcomeWith cfg i s).pc.toNat ≤ 256 := by
  have hkept : s.pc.toNat ≤ 256 := h.trans (by decide)
  cases i with
  | ldi | add | mul | cmp => exact State.advance_pc_le h le_rfl
  | prn => exact State.advance_pc_le h (by decide)
  | st => exact State.advance_pc_le h (stAmount_le_three _)
  | push =>
    simp only [outcomeWith]
    split
    · exact hkept
    · exact State.advance_pc_le h (by decide)
  | pop =>
    simp only [outcomeWith]
    split
    · exact hkept
    · split
      · exact State.advance_pc_le h (by decide)
      · exact hkept
  | call =>
    simp only [outcomeWith]
    split
    · exact hkept
    · exact State.jump_pc_le _ _
  | ret =>
    simp only [outcomeWith]
    split
    · exact hkept
    · split
      · exact s.jump_pc_le _
      · exact hkept
  | jeq | jne =>
    simp only [outcomeWith]
    split
    · exact s.jump_pc_le _
    · exact State.advance_pc_le h (by decide)
  | jmp => exact s.jump_pc_le _
  | hlt => exact hkept

/-! ### The error records steps leave -/

/-- A fetch that fails reports the first address above 255, which is 256 from every reachable pc (40_cycle.md R122). -/
theorem fetch_eq_error {s : State} {x : Raised} (h : fetch s = .error x) : x = ⟨.outOfRange, max 256 s.pc.toNat⟩ := by
  by_cases hle : s.pc.toNat ≤ 253
  · rw [fetch_of_le hle] at h
    cases h
  · rw [fetch_of_gt (by omega)] at h
    exact (Except.error.inj h).symm

/-- A window that is refused leaves a legal record (60_exceptions.md R240, R245, R246). -/
theorem legalIn_of_decode_error {cfg : Config} {s : State} {w : Window} {x : DecodeError} {e : Err}
    (hd : decode cfg.opcode w = .error x) (h : (raise (raisedOfDecode x) s).run = .faulted e) :
    e.legalIn cfg (raise (raisedOfDecode x) s) := by
  obtain rfl := eq_record_of_raise_run h
  obtain ⟨rfl, hno⟩ | ⟨b, rfl, hb⟩ := decode_eq_error hd
  · refine ⟨rfl, rfl, Int.natCast_nonneg _, ?_, fun m hm => hno m ?_⟩
    · exact Int.ofNat_le.2 (Nat.le_of_lt_succ w.b0.isLt)
    · exact BitVec.eq_of_toNat_eq (Int.ofNat.inj hm)
  · exact ⟨rfl, rfl, Int.ofNat_le.2 hb, Int.ofNat_le.2 (Nat.le_of_lt_succ b.isLt)⟩

/-- A meaning that raises leaves a legal record (60_exceptions.md R240, R244, R247). -/
theorem legalIn_of_outcomeWith_faulted {cfg : Config} {i : Instr} {s : State} {e : Err} (hr : s.run = .running)
    (h : (outcomeWith cfg i s).run = .faulted e) : e.legalIn cfg (outcomeWith cfg i s) := by
  have hstack := handlersRaiseOnlyAtTheStack cfg i s _ e hr (execWith_eq cfg i s) h
  obtain ⟨⟨kind, info⟩, hx⟩ := outcomeWith_faulted hr h
  rw [hx] at h ⊢
  obtain rfl := eq_record_of_raise_run h
  obtain ⟨rfl, hinfo, -⟩ | ⟨rfl, hinfo, -⟩ | ⟨rfl, rfl, hcheck, hsp, -⟩ := hstack
  · exact ⟨rfl, rfl, .inr hinfo⟩
  · exact ⟨rfl, rfl, .inl hinfo⟩
  · exact ⟨rfl, rfl, hcheck, rfl, Int.ofNat_le.2 hsp⟩

/-! ### The invariant -/

/-- A raise moves neither memory nor pc, so what is left to show of it is its record. -/
theorem Inv.raise_of_legal {cfg : Config} {s : State} (hs : Inv cfg s) {x : Raised}
    (h : ∀ e, (raise x s).run = .faulted e → e.legalIn cfg (raise x s)) : Inv cfg (raise x s) :=
  ⟨hs.mem_wf, hs.pc_le, h⟩

theorem Inv.of_stepWith {cfg : Config} {s t : State} (hs : Inv cfg s) (h : stepWith cfg s = .next t) : Inv cfg t := by
  obtain ⟨hr, ⟨x, hf, rfl⟩ | ⟨w, x, -, hd, rfl⟩ | ⟨w, i, hw, -, rfl⟩⟩ := stepWith_cases h
  · refine hs.raise_of_legal fun e he => ?_
    obtain rfl := eq_record_of_raise_run he
    obtain rfl := fetch_eq_error hf
    exact ⟨rfl, rfl, .inl (max_eq_left (Int.ofNat_le.2 hs.pc_le))⟩
  · exact hs.raise_of_legal fun e => legalIn_of_decode_error hd
  · exact ⟨outcomeWith_mem_wf hs.mem_wf cfg i, outcomeWith_pc_le (fetch_eq_ok hw).1 cfg i,
      fun e => legalIn_of_outcomeWith_faulted hr⟩

/-! ### The flags no instruction reads -/

theorem agreeButGL_setFlags (s : State) {f : Flags} (h : f.e = s.fl.e) : AgreeButGL s (s.setFlags f) :=
  ⟨rfl, rfl, h.symm, rfl, rfl, rfl⟩

/-- States that agree but for fl.G and fl.L are one state with its flags replaced. -/
theorem AgreeButGL.eq_setFlags {s t : State} (h : AgreeButGL s t) : t = s.setFlags t.fl := by
  obtain ⟨mem, x, fl, pc, run, out⟩ := s
  obtain ⟨rfl, rfl, -, rfl, rfl, rfl⟩ := h
  rfl

theorem outcomeWith_fl {cfg : Config} {i : Instr} {s : State} (hi : i.mnemonic ≠ .cmp) :
    (outcomeWith cfg i s).fl = s.fl := by
  have hkept : outcomeWith cfg i s = (outcomeWith cfg i s).setFlags s.fl :=
    outcomeWith_setFlags (f := s.fl) hi fun _ => rfl
  rw [hkept, State.setFlags_fl]

/-- CMP overwrites the flags without reading one, and no other instruction reads fl.G or fl.L (10_state.md R41). -/
theorem outcomeWith_agreeButGL (cfg : Config) (i : Instr) (s : State) {f : Flags} (he : f.e = s.fl.e) :
    AgreeButGL (outcomeWith cfg i s) (outcomeWith cfg i (s.setFlags f)) := by
  by_cases hi : i.mnemonic = .cmp
  · cases i with
    | cmp a b => exact ⟨rfl, rfl, rfl, rfl, rfl, rfl⟩
    | _ => cases hi
  · rw [outcomeWith_setFlags hi fun _ => he]
    exact agreeButGL_setFlags _ (he.trans (congrArg Flags.e (outcomeWith_fl hi)).symm)

theorem stepWith_agreeButGL (cfg : Config) {s t : State} (h : AgreeButGL s t) :
    Result.agreeButGL (stepWith cfg s) (stepWith cfg t) := by
  obtain ⟨f, he, rfl⟩ : ∃ f, f.e = s.fl.e ∧ t = s.setFlags f := ⟨t.fl, h.e.symm, h.eq_setFlags⟩
  by_cases hr : s.run = .running
  · have hr' : (s.setFlags f).run = .running := hr
    cases hw : fetch s with
    | error x =>
      rw [stepWith_of_fetch_error hr hw, stepWith_of_fetch_error hr' hw]
      exact agreeButGL_setFlags (raise x s) he
    | ok w =>
      cases hi : decode cfg.opcode w with
      | error x =>
        rw [stepWith_of_decode_error hr hw hi, stepWith_of_decode_error hr' hw hi]
        exact agreeButGL_setFlags (raise (raisedOfDecode x) s) he
      | ok i =>
        rw [stepWith_of_decode hr hw hi, stepWith_of_decode hr' hw hi, execWith_eq, execWith_eq]
        exact outcomeWith_agreeButGL cfg i s he
  · cases hrun : s.run with
    | running => exact absurd hrun hr
    | halted | faulted => simp only [stepWith, cycle, State.setFlags_run, hrun]; rfl

/-- The agreement is kept along a run, whose states stop together (10_state.md R41). -/
theorem after_agreeButGL (n : Nat) {s t : State} (h : AgreeButGL s t) : AgreeButGL (State.after n s) (State.after n t) := by
  induction n generalizing s t with
  | zero => exact h
  | succ n ih =>
    have hstep : Result.agreeButGL (step s) (step t) := by
      simpa only [step_eq_stepWith] using stepWith_agreeButGL machineConfig h
    unfold State.after
    cases hs : step s <;> cases ht : step t <;> rw [hs, ht] at hstep
    case next.next => exact ih hstep
    case fault.fault | refused.refused => exact h
    all_goals cases hstep

theorem AgreeButGL.trace_eq {s t : State} (h : AgreeButGL s t) : s.trace = t.trace := by
  rw [h.eq_setFlags]
  rfl

/-! ### The statements -/

/-- Settles O20: the invariant is kept by a raise and by every meaning; the machine's step is one of the
configurations'. -/
theorem everyStepKeepsInvariant : Obligations.EveryStepKeepsInvariant :=
  ⟨fun s _ hs h => hs.of_stepWith (step_eq_stepWith s ▸ h), fun _ _ _ => Inv.of_stepWith⟩

/-- Settles O24: one step keeps the agreement, so a run does, and what is observed of agreeing states is equal. -/
theorem greaterAndLessAreUnobservable : Obligations.GreaterAndLessAreUnobservable := by
  refine ⟨fun cfg _ _ => stepWith_agreeButGL cfg, fun n s t h => ?_⟩
  have hn := after_agreeButGL n h
  exact ⟨hn.trace_eq, hn.run, hn.out⟩

/-- Settles O22: the writes of a meaning are those of ST, PUSH and CALL, each at one address, and a raise has none. -/
theorem memoryChangesOnlyByStores : Obligations.MemoryChangesOnlyByStores := by
  intro cfg s t hm h k hk
  obtain ⟨x, rfl⟩ | ⟨i, hp, rfl⟩ := stepWith_raise_or_outcome h
  · exact absurd rfl hk
  have hop := opcode_of_encode_prefix hp
  simp only [State.byteAt] at hk
  obtain hmem | ⟨a, b, rfl, hmem⟩ | ⟨a, v, hi, hsp, hmem⟩ := outcomeWith_mem cfg i s
  · exact absurd (congrArg (Memory.read · k) hmem) hk
  · rw [hmem] at hk
    obtain rfl := Memory.eq_of_read_write_ne hk
    obtain ⟨-, hp⟩ := List.cons_prefix_cons.1 hp
    obtain ⟨h1, hp⟩ := List.cons_prefix_cons.1 hp
    obtain ⟨h2, -⟩ := List.cons_prefix_cons.1 hp
    refine .inl ⟨a, b, hop, h1.symm, h2.symm, rfl, ?_⟩
    rw [State.byteAt, hmem, Memory.read_write hm, if_pos rfl]
  · rw [hmem] at hk
    obtain rfl := Memory.eq_of_read_write_ne hk
    have hpos : (s.reg SP).toNat ≠ 0 := fun h0 => hsp (BitVec.eq_of_toNat_eq h0)
    refine .inr ⟨?_, by omega⟩
    obtain rfl | rfl := hi
    · exact .inl hop
    · exact .inr hop

end Sys2Proof.Machine
end

section
/-! Proofs, family other, memory and the host: the canonical form, writes and placed bytes as reads, the loader, the
trace, and a jump to its own address. -/

namespace Sys2Proof.Machine

/-! ### The canonical form of memory -/

theorem Memory.read_cons_self (k : Nat) (w : Byte) (m : Memory) : Memory.read ((k, w) :: m) k = w := if_pos rfl

theorem Memory.read_cons_other {k a : Nat} (h : a ≠ k) (w : Byte) (m : Memory) :
    Memory.read ((k, w) :: m) a = m.read a := if_neg h

/-- The first address a canonical memory lists reads as no unlisted one does (log 26). -/
theorem Memory.read_cons_ne_unlisted {k : Nat} {w : Byte} {m : Memory} (h : Memory.wf ((k, w) :: m)) :
    Memory.read ((k, w) :: m) k ≠ Memory.unlisted := by
  rw [Memory.read_cons_self]
  exact (h.2 (k, w) (.head _)).2

/-- Below its first address a canonical memory lists none (log 26). -/
theorem Memory.read_cons_of_lt {k a : Nat} {w : Byte} {m : Memory} (h : Memory.wf ((k, w) :: m)) (ha : a < k) :
    Memory.read ((k, w) :: m) a = Memory.unlisted := by
  refine Memory.read_eq_unlisted_of_lt fun c hc => ?_
  rcases List.mem_cons.1 hc with rfl | hc
  · exact ha
  · exact ha.trans (Memory.wf_head_lt h c hc)

/-- Of canonical memories that read alike none lists its first address above the other's. -/
theorem Memory.head_le_of_read_eq {k j : Nat} {w v : Byte} {m n : Memory} (hm : Memory.wf ((k, w) :: m))
    (hn : Memory.wf ((j, v) :: n)) (h : ∀ a, Memory.read ((k, w) :: m) a = Memory.read ((j, v) :: n) a) : j ≤ k := by
  by_contra hlt
  exact Memory.read_cons_ne_unlisted hm ((h k).trans (Memory.read_cons_of_lt hn (by omega)))

/-- The tails of canonical memories with one head read alike where the memories do. -/
theorem Memory.read_tail_eq {k : Nat} {w : Byte} {m n : Memory} (hm : Memory.wf ((k, w) :: m))
    (hn : Memory.wf ((k, w) :: n)) (h : ∀ a, Memory.read ((k, w) :: m) a = Memory.read ((k, w) :: n) a) (a : Nat) :
    m.read a = n.read a := by
  by_cases ha : a = k
  · subst a
    rw [Memory.read_eq_unlisted_of_lt (Memory.wf_head_lt hm), Memory.read_eq_unlisted_of_lt (Memory.wf_head_lt hn)]
  · rw [← Memory.read_cons_other ha w m, h a, Memory.read_cons_other ha]

theorem Memory.eq_of_read_eq {m n : Memory} (hm : m.wf) (hn : n.wf) (h : ∀ a, m.read a = n.read a) : m = n := by
  induction m generalizing n with
  | nil =>
    cases n with
    | nil => rfl
    | cons d n => exact absurd (h d.1).symm (Memory.read_cons_ne_unlisted hn)
  | cons c m ih =>
    obtain ⟨k, w⟩ := c
    cases n with
    | nil => exact absurd (h k) (Memory.read_cons_ne_unlisted hm)
    | cons d n =>
      obtain ⟨j, v⟩ := d
      obtain rfl : j = k :=
        le_antisymm (Memory.head_le_of_read_eq hm hn h) (Memory.head_le_of_read_eq hn hm fun a => (h a).symm)
      obtain rfl : w = v := by simpa only [Memory.read_cons_self] using h j
      rw [ih (Memory.wf_tail hm) (Memory.wf_tail hn) (Memory.read_tail_eq hm hn h)]

/-! ### Range-checked writes -/

/-- A write inside the address space sets the byte there (20_memory.md R62). -/
theorem memWrite_of_inRange {a : Int} (s : State) (v : Byte) (h : inRange a) :
    memWrite s a v = .ok (s.setByte a.toNat v) :=
  if_pos h

/-- A write outside the address space raises OutOfRange with the address (20_memory.md R62). -/
theorem memWrite_of_not_inRange {a : Int} (s : State) (v : Byte) (h : ¬ inRange a) :
    memWrite s a v = .error ⟨.outOfRange, a⟩ :=
  if_neg h

/-- A byte after an ST, by the address the ST stores to (43_memory_stack.md R180). -/
theorem byteAt_setByte_storeAddress {s : State} (hm : s.mem.wf) (a : Reg) (v : Byte) (k : Nat) :
    (s.setByte (s.reg a).toNat v).byteAt k = if storeAddress s a = k then v else s.byteAt k := by
  rw [State.byteAt_setByte hm, storeAddress]
  exact if_congr (eq_comm.trans Int.ofNat_inj.symm) rfl rfl

/-! ### The loader -/

/-- A start succeeds for an image of at most 256 bytes, with the image written from address 0 on
(70_reset_and_hazards.md R270, R273). -/
theorem start_eq_some_iff {image : List Byte} {s : State} :
    State.start image = some s ↔
      image.length ≤ 256 ∧ s = { State.reset with mem := State.reset.mem.writeAll 0 image } := by
  rw [State.start, State.loadImage, imageWellFormed]
  by_cases h : image.length ≤ 256
  · simp only [h, decide_true, if_true, true_and, Option.some.injEq]
    exact eq_comm
  · simp [h]

theorem inv_reset (cfg : Config) : Inv cfg State.reset :=
  ⟨Memory.wf_nil, by decide, nofun⟩

/-- A byte of a loaded image, and 0 past its end (70_reset_and_hazards.md R271, R273). -/
theorem read_loaded_image {image : List Byte} (h : image.length ≤ 256) (i : Nat) :
    (Memory.writeAll State.reset.mem 0 image).read i = if h : i < image.length then image[i] else 0 := by
  have hm : State.reset.mem.wf := Memory.wf_nil
  rw [Memory.read_writeAll hm image (by omega)]
  by_cases hi : i < image.length
  · rw [if_pos ⟨by omega, by omega⟩, dif_pos hi, Nat.sub_zero, List.getD_eq_getElem _ _ hi]
  · rw [if_neg (by omega), dif_neg hi]
    rfl

/-! ### Placed words -/

/-- The placed window is the window at the placed state's pc (log 15). -/
theorem placeWindow_windowIs {s : State} (hm : s.mem.wf) (w : Window) : (placeWindow s w).windowIs w.b0 w.b1 w.b2 := by
  have hpc : (placeWindow s w).pc.toNat ≤ 253 := by
    simp only [placeWindow]
    split
    · exact BitVec.le_def.1 ‹s.pc ≤ lastInstructionAddress›
    · decide
  have hread : ∀ k < 3, (placeWindow s w).byteAt ((placeWindow s w).pc.toNat + k) = [w.b0, w.b1, w.b2].getD k 0 := by
    intro k hk
    have hfits : (placeWindow s w).pc.toNat + [w.b0, w.b1, w.b2].length ≤ 256 := by
      simp only [List.length_cons, List.length_nil]
      omega
    refine (Memory.read_writeAll hm [w.b0, w.b1, w.b2] hfits _).trans ?_
    rw [if_pos ⟨by omega, by simp only [List.length_cons, List.length_nil]; omega⟩, Nat.add_sub_cancel_left]
  exact ⟨hpc, hread 0 (by decide), hread 1 (by decide), hread 2 (by decide)⟩

theorem decode_of_decodeTableWord {nbits w : Nat} {i : Instr} (h : decodeTableWord nbits w = some i) :
    decode defaultOpcode (windowOfTableWord nbits w) = .ok i := by
  unfold decodeTableWord at h
  split at h
  · next j hj => rwa [Option.some.inj h] at hj
  · cases h

/-! ### The trace -/

theorem State.traceByte_of_le (s : State) {a : Nat} (h : a ≤ 255) : s.traceByte a = some (s.byteAt a) := if_pos h

theorem State.traceByte_of_gt (s : State) {a : Nat} (h : 255 < a) : s.traceByte a = none := if_neg (by omega)

/-! ### A jump to its own address -/

theorem State.jump_eq_self {s : State} {v : Byte} (h : v.toNat = s.pc.toNat) : s.jump v = s := by
  have hpc : (s.jump v).pc = s.pc := BitVec.eq_of_toNat_eq (by rw [State.jump_pc_toNat, h])
  calc s.jump v = { s with pc := (s.jump v).pc } := rfl
    _ = s := by rw [hpc]

theorem stepWith_jmp {cfg : Config} {s : State} {a : Reg} {b2 : Byte} (hopc : cfg.opcode.wellFormed = true)
    (hr : s.run = .running) (hw : s.windowIs (cfg.opcode .jmp) (regByte a) b2) :
    stepWith cfg s = .next (s.jump (s.reg a)) :=
  stepWith_of_operands hopc hr hw (formatR_regByte .jmp a)

theorem after_eq_self_of_step_eq_self {s : State} (h : step s = .next s) (n : Nat) : State.after n s = s := by
  induction n with
  | zero => rfl
  | succ n ih =>
    unfold State.after
    rw [h]
    exact ih

/-! ### The statements -/

/-- Settles O18: reset's memory is empty, its pc 0 and its run state running. -/
theorem invariantAtReset : Obligations.InvariantAtReset := inv_reset

/-- Settles O19: a start differs from reset in memory, whose canonical form every write of the loader keeps. -/
theorem invariantAtStart : Obligations.InvariantAtStart := by
  intro cfg image s h
  obtain ⟨hlen, rfl⟩ := start_eq_some_iff.1 h
  have hreset := inv_reset cfg
  exact ⟨Memory.wf_writeAll hreset.mem_wf image (by omega), hreset.pc_le, hreset.err_legal⟩

/-- Settles O25: the fetch after an ST reads memory as the ST's write left it. -/
theorem storeIsFetchedNext : Obligations.StoreIsFetchedNext := by
  intro cfg s t a b hopc hm hr hw h hpc
  rw [stepWith_st hopc hr hw] at h
  obtain rfl := Host.Outcome.next.inj h
  exact ⟨_, fetch_of_le hpc, byteAt_setByte_storeAddress hm a _ _, byteAt_setByte_storeAddress hm a _ _,
    byteAt_setByte_storeAddress hm a _ _⟩

/-- Settles O26: the jump's step answers the state it started from, so every run from there stays in it. -/
theorem jumpToItselfRunsForever : Obligations.JumpToItselfRunsForever := by
  intro s a b2 hr hw ha
  have hstep : step s = .next s := by
    rw [step_eq_stepWith, stepWith_jmp defaultOpcode_wellFormed hr hw, State.jump_eq_self ha]
  have hafter : ∀ n, State.after n s = s := after_eq_self_of_step_eq_self hstep
  refine ⟨hstep, fun n => ⟨hafter n, fun k _ e he => ?_⟩⟩
  rw [hafter k, hr] at he
  cases he

/-- Settles O27, by induction on the two lists: canonical memories that read alike have one head. -/
theorem canonicalMemoriesReadingAlikeAreEqual : Obligations.CanonicalMemoriesReadingAlikeAreEqual :=
  fun _ _ => Memory.eq_of_read_eq

/-- Settles O29: what a start is, and what a read gives after the loader's writes. -/
theorem loaderPlacesTheImage : Obligations.LoaderPlacesTheImage := by
  refine ⟨fun image s h => ?_, fun image => ⟨?_, fun h => ⟨_, start_eq_some_iff.2 ⟨h, rfl⟩⟩⟩⟩
  · obtain ⟨hlen, rfl⟩ := start_eq_some_iff.1 h
    exact ⟨rfl, read_loaded_image hlen⟩
  · rintro ⟨s, h⟩
    exact (start_eq_some_iff.1 h).1

/-- Settles O30: the trace shows a byte at each of its three addresses that is at most 255, and reads no other field. -/
theorem traceShowsPcWindowAndRegisters : Obligations.TraceShowsPcWindowAndRegisters := by
  refine ⟨fun s b0 b1 b2 h => ?_, fun s h => ?_, fun s h => ?_, fun s h => ?_, fun _ _ _ _ => rfl⟩
  · obtain ⟨hpc, rfl, rfl, rfl⟩ := h
    rw [State.trace, s.traceByte_of_le (by omega), s.traceByte_of_le (by omega), s.traceByte_of_le (by omega)]
  · rw [State.trace, h, s.traceByte_of_le (by decide), s.traceByte_of_le (by decide), s.traceByte_of_gt (by decide)]
  · rw [State.trace, h, s.traceByte_of_le (by decide), s.traceByte_of_gt (by decide), s.traceByte_of_gt (by decide)]
  · rw [State.trace, s.traceByte_of_gt h, s.traceByte_of_gt (by omega), s.traceByte_of_gt (by omega)]

/-- Settles O31: the placed window decodes to the word's instruction. -/
theorem placedWordRunsNext : Obligations.PlacedWordRunsNext := by
  intro s nbits w i hm h
  exact ⟨rfl, step_of_decode rfl (fetch_of_windowIs (placeWindow_windowIs hm _)) (decode_of_decodeTableWord h)⟩

/-- Settles O33: the two answers of a write, inside and outside the address space. -/
theorem memWriteChangesOneByte : Obligations.MemWriteChangesOneByte := by
  intro s a v hm
  refine ⟨fun ha => ⟨_, memWrite_of_inRange s v ha, State.byteAt_setByte_self hm _ v, s.memAsBefore_setByte _ v, rfl, ?_⟩,
    memWrite_of_not_inRange s v⟩
  exact Memory.wf_write hm (by omega) v

end Sys2Proof.Machine
end

section
/-! Proofs, family other, single instructions: what each answers, its result and its frame, at the bounds of the stack
too. -/

namespace Sys2Proof.Machine

/-! ### A register write, an output, a jump or an advance -/

/-- LDI, ADD and MUL are one register write and an advance (41_load_print.md R150; 42_arith.md R165, R166). -/
theorem setReg_advance_completes {s : State} (hpc : s.pc.toNat ≤ 253) (a : Reg) (v : Byte) :
    ((s.setReg a v).advance 3).reg a = v ∧ s.regsAsBefore ((s.setReg a v).advance 3) [a] ∧
      s.memAsBefore ((s.setReg a v).advance 3) [] ∧ ((s.setReg a v).advance 3).pc.toNat = s.pc.toNat + 3 :=
  ⟨s.reg_setReg_self a v, s.regsAsBefore_setReg a v, fun _ _ => rfl,
    State.advance_pc_toNat_of_le hpc le_rfl⟩

theorem stepWith_prn {cfg : Config} {s : State} {a : Reg} {b2 : Byte} (hopc : cfg.opcode.wellFormed = true)
    (hr : s.run = .running) (hw : s.windowIs (cfg.opcode .prn) (regByte a) b2) :
    stepWith cfg s = .next ((s.emit (s.reg a)).advance 2) :=
  stepWith_of_operands hopc hr hw (formatR_regByte .prn a)

/-- A conditional jump writes pc and nothing else (45_compare_branch.md R212, R213). -/
theorem State.jump_or_advance (c : Prop) [Decidable c] {s t : State} (v : Byte) (hpc : s.pc.toNat ≤ 253)
    (ht : t = if c then s.jump v else s.advance 2) :
    t.pc.toNat = (if c then v.toNat else s.pc.toNat + 2) ∧ s.regsAsBefore t [] ∧ s.memAsBefore t [] ∧
      t.fl = s.fl ∧ t.out = s.out ∧ t.run = s.run := by
  subst ht
  split
  · exact ⟨s.jump_pc_toNat v, fun _ _ => rfl, fun _ _ => rfl, rfl, rfl, rfl⟩
  · exact ⟨State.advance_pc_toNat_of_le hpc (by decide), fun _ _ => rfl, fun _ _ => rfl, rfl, rfl, rfl⟩

/-! ### The push of PUSH and CALL -/

/-- The stack pointer a push leaves, where it does not raise (43_memory_stack.md R182, R183). -/
def State.spBelow (s : State) : Byte := trunc8 ((s.reg SP).toNat - 1)

/-- `x[a]` as PUSH and CALL read it, after the decrement (43_memory_stack.md R186, 44_subroutine.md R201). -/
def State.regBelow (s : State) (a : Reg) : Byte := if a = SP then s.spBelow else s.reg a

/-- The state after a push of `v`, where it does not raise (43_memory_stack.md R182). -/
def State.afterPush (s : State) (v : Byte) : State := (s.setReg SP s.spBelow).setByte s.spBelow.toNat v

theorem State.spBelow_toNat (s : State) : s.spBelow.toNat = (s.reg SP).toNat - 1 := by
  have := (s.reg SP).isLt
  rw [State.spBelow, trunc8_toNat]
  omega

theorem State.spBelow_toNat_add_one {s : State} (h : s.reg SP ≠ 0) : s.spBelow.toNat + 1 = (s.reg SP).toNat := by
  have : (s.reg SP).toNat ≠ 0 := fun h0 => h (BitVec.eq_of_toNat_eq h0)
  rw [s.spBelow_toNat]
  omega

@[simp] theorem State.afterPush_reg_SP (s : State) (v : Byte) : (s.afterPush v).reg SP = s.spBelow :=
  s.reg_setReg_self SP s.spBelow

theorem State.afterPush_reg (s : State) (v : Byte) (r : Reg) : (s.afterPush v).reg r = s.regBelow r :=
  s.reg_setReg SP r s.spBelow

theorem State.regsAsBefore_afterPush (s : State) (v : Byte) : s.regsAsBefore (s.afterPush v) [SP] :=
  s.regsAsBefore_setReg SP s.spBelow

theorem State.byteAt_afterPush {s : State} (hm : s.mem.wf) (v : Byte) : (s.afterPush v).byteAt s.spBelow.toNat = v :=
  State.byteAt_setByte_self (s := s.setReg SP s.spBelow) hm _ v

theorem State.memAsBefore_afterPush (s : State) (v : Byte) : s.memAsBefore (s.afterPush v) [s.spBelow.toNat] :=
  (s.setReg SP s.spBelow).memAsBefore_setByte s.spBelow.toNat v

/-- PUSH pushes its register as it is after the decrement (43_memory_stack.md R186). -/
theorem exec_push {s : State} (a : Reg) (h : s.reg SP ≠ 0) :
    exec (.push a) s = .next ((s.afterPush (s.regBelow a)).advance 2) := by
  rw [State.afterPush, State.regBelow, s.spBelow_toNat, ← s.reg_setReg SP a s.spBelow]
  exact (execPush_eq a s).trans (by rw [if_neg h]; rfl)

/-- CALL pushes its return address and jumps to its register as it is after the push (44_subroutine.md R200, R201). -/
theorem exec_call {s : State} (a : Reg) (h : s.reg SP ≠ 0) :
    exec (.call a) s = .next ((s.afterPush (returnAddress s)).jump (s.regBelow a)) := by
  rw [State.afterPush, State.regBelow, s.spBelow_toNat, ← s.reg_setReg SP a s.spBelow]
  exact (execCall_eq a s).trans (by rw [if_neg h]; rfl)

/-- The pushed return address is exact after a fetch (44_subroutine.md R200). -/
theorem returnAddress_toNat {s : State} (h : s.pc.toNat ≤ 253) : (returnAddress s).toNat = s.pc.toNat + 2 := by
  rw [returnAddress, trunc8_toNat, Nat.mod_eq_of_lt (by omega)]

/-! ### POP and RET -/

theorem not_underflows {cfg : Config} {s : State} (h : cfg.stackUnderflowCheck = false ∨ (s.reg SP).toNat < 0xF4) :
    ¬ underflows cfg s := by
  rintro ⟨hcheck, hsp⟩
  obtain h | h := h
  · exact Bool.false_ne_true (h.symm.trans hcheck)
  · exact absurd hsp (Nat.not_le.2 h)

theorem poppedSp_eq (a : Reg) (s : State) : s.poppedSp a = (popBase a s).toNat :=
  (apply_ite BitVec.toNat _ _ _).symm

theorem trunc8_succ_toNat {v : Byte} (h : v.toNat < 255) : (trunc8 (v.toNat + 1)).toNat = v.toNat + 1 := by
  rw [trunc8_toNat, Nat.mod_eq_of_lt (by omega)]

theorem execWith_pop {cfg : Config} {a : Reg} {s : State} (hu : ¬ underflows cfg s) (h : s.poppedSp a < 255) :
    execWith cfg (.pop a) s = .next
      (((s.setReg a (s.byteAt (s.reg SP).toNat)).setReg SP (trunc8 (s.poppedSp a + 1))).advance 2) := by
  rw [poppedSp_eq] at h ⊢
  exact (execPopWith_eq cfg a s).trans (by rw [if_neg hu, if_pos h])

theorem execWith_ret {cfg : Config} {s : State} (hu : ¬ underflows cfg s) (h : (s.reg SP).toNat < 255) :
    execWith cfg .ret s = .next
      ((s.jump (s.byteAt (s.reg SP).toNat)).setReg SP (trunc8 ((s.reg SP).toNat + 1))) :=
  (execRetWith_eq cfg s).trans (by rw [if_neg hu, if_pos h])

theorem execWith_pop_top {cfg : Config} {a : Reg} {s : State} (hu : ¬ underflows cfg s) (h : s.poppedSp a = 255) :
    execWith cfg (.pop a) s = .next (raise ⟨.outOfRange, 256⟩ s) := by
  have hb : ¬ (popBase a s).toNat < 255 := by rw [← poppedSp_eq, h]; decide
  exact (execPopWith_eq cfg a s).trans (by rw [if_neg hu, if_neg hb])

theorem execWith_ret_top {cfg : Config} {s : State} (hu : ¬ underflows cfg s) (h : s.reg SP = 255) :
    execWith cfg .ret s = .next (raise ⟨.outOfRange, 256⟩ s) := by
  have hb : ¬ (s.reg SP).toNat < 255 := by rw [h]; decide
  exact (execRetWith_eq cfg s).trans (by rw [if_neg hu, if_neg hb])

/-- A POP that raises nothing writes two registers, the stack pointer last (43_memory_stack.md R185). -/
theorem popsTo_of_lt {a : Reg} {s : State} (hpc : s.pc.toNat ≤ 253) (h : s.poppedSp a < 255) :
    s.popsTo (((s.setReg a (s.byteAt (s.reg SP).toNat)).setReg SP (trunc8 (s.poppedSp a + 1))).advance 2) a where
  popped ha := by rw [State.reg_advance, State.reg_setReg_other _ _ ha, State.reg_setReg_self]
  sp := by rw [State.reg_advance, State.reg_setReg_self, trunc8_toNat, Nat.mod_eq_of_lt (by omega)]
  pc := State.advance_pc_toNat_of_le hpc (by decide)
  regs r hr := by
    rw [List.mem_pair, not_or] at hr
    rw [State.reg_advance, State.reg_setReg_other _ _ hr.2, State.reg_setReg_other _ _ hr.1]
  mem _ _ := rfl
  fl := rfl
  out := rfl
  run := rfl

/-- A RET that raises nothing writes pc and the stack pointer (44_subroutine.md R202). -/
theorem returnsTo_of_lt {s : State} (h : (s.reg SP).toNat < 255) :
    s.returnsTo ((s.jump (s.byteAt (s.reg SP).toNat)).setReg SP (trunc8 ((s.reg SP).toNat + 1))) where
  pc := s.jump_pc_toNat _
  sp := by rw [State.reg_setReg_self, trunc8_succ_toNat h]
  regs _ hr := State.reg_setReg_other _ _ (List.ne_of_not_mem_cons hr)
  mem _ _ := rfl
  fl := rfl
  out := rfl
  run := rfl

/-- A meaning that raises StackUnderflow is a POP or RET under the check, and changes the run state only
(43_memory_stack.md R187; 60_exceptions.md R242, R247). -/
theorem eq_faultedWith_of_outcomeWith_underflow {cfg : Config} {i : Instr} {s : State} {e : Err}
    (hr : s.run = .running) (h : (outcomeWith cfg i s).run = .faulted e) (hkind : e.kind = .stackUnderflow) :
    cfg.stackUnderflowCheck = true ∧ 0xF4 ≤ (s.reg SP).toNat ∧ (∃ a, i = .ret ∨ i = .pop a) ∧
      outcomeWith cfg i s = s.faultedWith .stackUnderflow 4 (s.reg SP).toNat := by
  obtain ⟨hk, -⟩ | ⟨hk, -⟩ | ⟨-, hinfo, hcheck, hsp, hi⟩ :=
    handlersRaiseOnlyAtTheStack cfg i s _ e hr (execWith_eq cfg i s) h
  · cases hkind.symm.trans hk
  · cases hkind.symm.trans hk
  · obtain ⟨⟨kind, info⟩, hx⟩ := outcomeWith_faulted hr h
    rw [hx] at h
    obtain rfl := eq_record_of_raise_run h
    obtain rfl : kind = .stackUnderflow := hkind
    obtain rfl : info = (s.reg SP).toNat := hinfo
    exact ⟨hcheck, hsp, hi, hx⟩

/-! ### The table of the compare -/

theorem aluCompare_of_lt {a b : Byte} (h : a.toNat < b.toNat) (rule : CmpEqualRule) :
    aluCompare rule a b = ⟨false, true, false⟩ := by
  cases rule <;> simp [aluCompare, equalFlag, h, h.ne, h.le]

theorem aluCompare_of_eq {a b : Byte} (h : a.toNat = b.toNat) (rule : CmpEqualRule) :
    aluCompare rule a b = ⟨false, false, true⟩ := by
  cases rule <;> simp [aluCompare, equalFlag, h]

theorem aluCompare_literal_of_gt {a b : Byte} (h : a.toNat > b.toNat) : aluCompare .literal a b = ⟨true, false, true⟩ := by
  simp [aluCompare, equalFlag, h, h.le]

theorem aluCompare_corrected_of_gt {a b : Byte} (h : a.toNat > b.toNat) :
    aluCompare .corrected a b = ⟨true, false, false⟩ := by
  simp [aluCompare, equalFlag, h, h.le, h.ne']

/-! ### The statements -/

/-- Settles O35: the flags of each of the three orders, from which the rules' three clauses are read off. -/
theorem aluCompareTable : Obligations.AluCompareTable := by
  intro a b
  refine ⟨aluCompare_of_lt, aluCompare_of_eq, fun h => ⟨aluCompare_literal_of_gt h, aluCompare_corrected_of_gt h⟩, ?_⟩
  obtain h | h | h := Nat.lt_trichotomy a.toNat b.toNat
  · rw [aluCompare_of_lt h, aluCompare_of_lt h]
    decide
  · rw [aluCompare_of_eq h, aluCompare_of_eq h]
    decide
  · rw [aluCompare_literal_of_gt h, aluCompare_corrected_of_gt h]
    decide

/-- Settles O43: PRN appends to the output and advances. -/
theorem prnCompletes : Obligations.PrnCompletes :=
  fun a s hpc => ⟨_, exec_eq_next (.prn a) s, rfl, fun _ _ => rfl, fun _ _ => rfl, rfl, rfl,
    State.advance_pc_toNat_of_le hpc (by decide)⟩

/-- Settles O37: the exceptions are those of every mnemonic, and PRN's step is the completion of its meaning. -/
theorem prnFollowsItsRule : Obligations.PrnFollowsItsRule := by
  intro cfg s hopc hr
  refine ⟨fetchAndOperandExceptions_of_running hopc hr .prn, fun a b2 hw => ?_⟩
  obtain ⟨t, ht, hframe⟩ := prnCompletes a s hw.1
  refine ⟨t, ?_, hframe⟩
  rw [stepWith_prn hopc hr hw]
  exact ht

/-- Settles O41: the exceptions are those of every mnemonic, and JMP's step writes pc only. -/
theorem jmpFollowsItsRule : Obligations.JmpFollowsItsRule := by
  intro cfg s hopc hr
  refine ⟨fetchAndOperandExceptions_of_running hopc hr .jmp, fun a b2 hw => ?_⟩
  exact ⟨_, stepWith_jmp hopc hr hw, s.jump_pc_toNat _, fun _ _ => rfl, fun _ _ => rfl, rfl, rfl, rfl⟩

/-- Settles O42: LDI writes one register and advances. -/
theorem ldiCompletes : Obligations.LdiCompletes := by
  intro a imm s hpc
  obtain ⟨hreg, hregs, hmem, hpc'⟩ := setReg_advance_completes hpc a imm
  exact ⟨_, exec_eq_next _ s, hreg, hregs, hmem, rfl, rfl, rfl, hpc'⟩

/-- Settles O44: each writes the ALU's result, wrapped, to one register. -/
theorem addAndMulComplete : Obligations.AddAndMulComplete := by
  intro a b s hpc
  constructor
  · obtain ⟨hreg, hregs, hmem, hpc'⟩ := setReg_advance_completes hpc a (aluAdd (s.reg a) (s.reg b))
    exact ⟨_, exec_eq_next _ s, (congrArg BitVec.toNat hreg).trans (aluAdd_toNat _ _), hregs, hmem, rfl, rfl, rfl, hpc'⟩
  · obtain ⟨hreg, hregs, hmem, hpc'⟩ := setReg_advance_completes hpc a (aluMul (s.reg a) (s.reg b))
    exact ⟨_, exec_eq_next _ s, (congrArg BitVec.toNat hreg).trans (aluMul_toNat _ _), hregs, hmem, rfl, rfl, rfl, hpc'⟩

/-- Settles O45: ST writes one byte, at x[A], and advances. -/
theorem stCompletes : Obligations.StCompletes := by
  intro a b s hm hpc
  refine ⟨_, exec_eq_next _ s, fun k hk => ?_, rfl, fun _ _ => rfl, rfl, rfl, rfl,
    (s.setByte (s.reg a).toNat (s.reg b)).advance_stAmount_pc_toNat hpc .two⟩
  obtain rfl : (s.reg a).toNat = k := Int.ofNat.inj hk
  exact ⟨State.byteAt_setByte_self hm _ _, s.memAsBefore_setByte _ _⟩

/-- Settles O46: PUSH is a push and an advance. -/
theorem pushCompletes : Obligations.PushCompletes := by
  intro a s hm hpc hsp
  exact ⟨s.spBelow, _, spDecrement_of_ne hsp, State.spBelow_toNat_add_one hsp, exec_push a hsp,
    s.afterPush_reg_SP (s.regBelow a), State.byteAt_afterPush hm (s.regBelow a),
    s.regsAsBefore_afterPush (s.regBelow a), s.memAsBefore_afterPush (s.regBelow a), rfl, rfl, rfl,
    State.advance_pc_toNat_of_le hpc (by decide)⟩

/-- Settles O48: CALL is a push of the return address and a jump. -/
theorem callCompletes : Obligations.CallCompletes := by
  intro a s hm hpc hsp
  refine ⟨s.spBelow, _, spDecrement_of_ne hsp, State.spBelow_toNat_add_one hsp, exec_call a hsp,
    s.afterPush_reg_SP (returnAddress s), ?_,
    State.jump_pc_toNat _ _, s.regsAsBefore_afterPush (returnAddress s), s.memAsBefore_afterPush (returnAddress s), rfl,
    rfl, rfl⟩
  exact (congrArg BitVec.toNat (State.byteAt_afterPush hm _)).trans (returnAddress_toNat hpc)

/-- Settles O47: where neither check nor bound raises, POP is two register writes and an advance; the machine's POP is
that of a configuration without the check. -/
theorem popCompletes : Obligations.PopCompletes := by
  refine ⟨fun a s hpc h => ?_, fun cfg a s hpc h hu => ⟨_, execWith_pop (not_underflows hu) h, popsTo_of_lt hpc h⟩⟩
  rw [exec_eq_execWith]
  exact ⟨_, execWith_pop (not_underflows (.inl rfl)) h, popsTo_of_lt hpc h⟩

/-- Settles O49: where neither check nor bound raises, RET is a jump and one register write; the machine's RET is that of
a configuration without the check. -/
theorem retCompletes : Obligations.RetCompletes := by
  refine ⟨fun s h => ?_, fun cfg s h hu => ⟨_, execWith_ret (not_underflows hu) h, returnsTo_of_lt h⟩⟩
  rw [exec_eq_execWith]
  exact ⟨_, execWith_ret (not_underflows (.inl rfl)) h, returnsTo_of_lt h⟩

/-- Settles O50: CMP replaces the flags by the compare under the Literal rule and advances. -/
theorem cmpCompletes : Obligations.CmpCompletes := by
  intro a b s hpc
  exact ⟨_, exec_eq_next _ s, aluCompare_g_iff _ _ _, aluCompare_l_iff _ _ _, aluCompare_literal_e_iff _ _,
    fun _ _ => rfl, fun _ _ => rfl, rfl, rfl, State.advance_pc_toNat_of_le hpc le_rfl⟩

/-- Settles O51: JEQ and JNE are a jump or an advance by fl.E, JMP is a jump. -/
theorem jumpsComplete : Obligations.JumpsComplete := by
  intro a s hpc
  refine ⟨⟨_, exec_eq_next _ s, State.jump_or_advance (s.fl.e = true) (s.reg a) hpc rfl⟩, ?_,
    _, exec_eq_next _ s, s.jump_pc_toNat _, fun _ _ => rfl, fun _ _ => rfl, rfl, rfl, rfl⟩
  obtain ⟨hto, hframe⟩ := State.jump_or_advance ((!s.fl.e) = true) (s.reg a) hpc rfl
  refine ⟨_, exec_eq_next _ s, hto.trans ?_, hframe⟩
  cases s.fl.e <;> rfl

/-- Settles O52: HLT writes the run state only. -/
theorem hltCompletes : Obligations.HltCompletes :=
  fun s => ⟨_, exec_eq_next .hlt s, rfl, rfl, fun _ _ => rfl, fun _ _ => rfl, rfl, rfl⟩

/-- Settles O53: the raising branches of the four stack instructions. -/
theorem stackBoundsRaise : Obligations.StackBoundsRaise := by
  intro a s
  have hu : ¬ underflows machineConfig s := not_underflows (.inl rfl)
  simp only [exec_eq_execWith]
  refine ⟨fun h => ⟨?_, ?_⟩, fun h => ⟨execWith_ret_top hu h, fun ha => execWith_pop_top hu ?_⟩,
    fun h => execWith_pop_top hu ?_⟩
  · exact (execPush_eq a s).trans (by rw [if_pos h]; rfl)
  · exact (execCall_eq a s).trans (by rw [if_pos h]; rfl)
  · rw [State.poppedSp, if_neg ha, h]
    rfl
  · rw [State.poppedSp, if_pos rfl, h]
    rfl

/-- Settles O54: the check comes first in POP and RET, and of all errors of a step only theirs has this kind. -/
theorem underflowCheckIsConfigured : Obligations.UnderflowCheckIsConfigured := by
  refine ⟨fun cfg a s hcheck hsp => ?_, fun cfg s t e h ht hkind => ?_⟩
  · have hu : underflows cfg s := ⟨hcheck, hsp⟩
    exact ⟨(execPopWith_eq cfg a s).trans (by rw [if_pos hu]; rfl), (execRetWith_eq cfg s).trans (by rw [if_pos hu]; rfl)⟩
  · obtain ⟨hr, ⟨x, hf, rfl⟩ | ⟨w, x, -, hd, rfl⟩ | ⟨w, i, hw, hi, rfl⟩⟩ := stepWith_cases h
    · obtain rfl := fetch_eq_error hf
      obtain rfl := eq_record_of_raise_run ht
      cases hkind
    · obtain rfl := eq_record_of_raise_run ht
      cases x <;> cases hkind
    · obtain ⟨hcheck, hsp, hstack, ht⟩ := eq_faultedWith_of_outcomeWith_underflow hr ht hkind
      obtain ⟨hpc, rfl⟩ := fetch_eq_ok hw
      have hop := opcode_of_encode_prefix (encode_prefix_of_decode hi)
      refine ⟨hcheck, hsp, hpc, ?_, ht⟩
      obtain ⟨a, rfl | rfl⟩ := hstack
      · exact .inr hop
      · exact .inl hop

end Sys2Proof.Machine
end

section
/-! Proofs, family other, two instructions in a row: LDI and PRN, PUSH and POP, CALL and RET, ST and its own operand byte,
CMP and a conditional jump. -/

namespace Sys2Proof.Machine

/-! ### PUSH and POP -/

theorem State.spBelow_toNat_lt (s : State) : s.spBelow.toNat < 255 := by
  have := (s.reg SP).isLt
  rw [s.spBelow_toNat]
  omega

/-- The increment of a POP undoes the decrement of a PUSH (43_memory_stack.md R183, R184). -/
theorem trunc8_spBelow_add_one {s : State} (h : s.reg SP ≠ 0) : trunc8 (s.spBelow.toNat + 1) = s.reg SP :=
  BitVec.eq_of_toNat_eq ((trunc8_succ_toNat s.spBelow_toNat_lt).trans (State.spBelow_toNat_add_one h))

/-- After a PUSH the value its POP increments is the stack pointer the PUSH left, `PUSH R7` included: it pushed that
value (43_memory_stack.md R185, R186). -/
theorem poppedSp_afterPush {s : State} (hm : s.mem.wf) (r : Reg) :
    (s.afterPush (s.regBelow r)).poppedSp r = s.spBelow.toNat := by
  rw [State.poppedSp, State.afterPush_reg_SP, State.byteAt_afterPush hm, State.regBelow]
  split <;> rfl

/-- Writing back the popped byte, then the old stack pointer, restores every register (43_memory_stack.md R188). -/
theorem reg_afterPush_restored (s : State) (v : Byte) (r q : Reg) :
    (((s.afterPush v).setReg r (s.regBelow r)).setReg SP (s.reg SP)).reg q = s.reg q := by
  by_cases hq : q = SP
  · rw [hq, State.reg_setReg_self]
  · rw [State.reg_setReg_other _ _ hq, State.reg_setReg]
    split
    · next hr => rw [← hr, State.regBelow, if_neg hq]
    · rw [State.afterPush_reg, State.regBelow, if_neg hq]

/-- The POP after a PUSH of the same register, from the state the PUSH left (43_memory_stack.md R185). -/
theorem exec_pop_afterPush {s : State} (hm : s.mem.wf) (h : s.reg SP ≠ 0) (r : Reg) :
    exec (.pop r) ((s.afterPush (s.regBelow r)).advance 2) = .next
      (((((s.afterPush (s.regBelow r)).advance 2).setReg r (s.regBelow r)).setReg SP (s.reg SP)).advance 2) := by
  have hbase : ((s.afterPush (s.regBelow r)).advance 2).poppedSp r = s.spBelow.toNat := poppedSp_afterPush hm r
  have htop : ((s.afterPush (s.regBelow r)).advance 2).byteAt
      (((s.afterPush (s.regBelow r)).advance 2).reg SP).toNat = s.regBelow r := by
    rw [State.reg_advance, State.afterPush_reg_SP]
    exact State.byteAt_afterPush hm _
  have hpop := execWith_pop (a := r) (s := (s.afterPush (s.regBelow r)).advance 2)
    (not_underflows (cfg := machineConfig) (.inl rfl)) (hbase ▸ s.spBelow_toNat_lt)
  rw [hbase, htop, trunc8_spBelow_add_one h] at hpop
  exact (exec_eq_execWith _ _).trans hpop

/-! ### ST and the byte after its advance -/

/-- Of the register bytes only 1 is a default opcode, HLT's (43_memory_stack.md R181; default opcodes: log 1). -/
theorem defaultOpcode_ne_regByte {b : Reg} (hb : b ≠ 1) (m : Mnemonic) : defaultOpcode m ≠ regByte b := by
  have hall : ∀ b : Reg, b ≠ 1 → ∀ m ∈ Mnemonic.all, defaultOpcode m ≠ regByte b := by decide
  exact hall b hb m m.mem_all

/-! ### The statements -/

/-- Settles O55: PRN's window stands where LDI's advance leads, and the register holds the immediate there. -/
theorem ldiThenPrnEmitsTheImmediate : Obligations.LdiThenPrnEmitsTheImmediate := by
  intro cfg s r v hopc hr hw hpc hop hreg
  have hpc' : ((s.setReg r v).advance 3).pc.toNat = s.pc.toNat + 3 := State.advance_pc_toNat_of_le hw.1 le_rfl
  have hw' : ((s.setReg r v).advance 3).windowIs (cfg.opcode .prn) (regByte r) (s.byteAt (s.pc.toNat + 5)) := by
    rw [State.windowIs, hpc']
    exact ⟨hpc, hop, hreg, rfl⟩
  refine ⟨_, _, stepWith_ldi hopc hr hw, stepWith_prn hopc hr hw', ?_, hr⟩
  rw [State.advance_out, State.emit_out, State.reg_advance, State.reg_setReg_self]
  rfl

/-- Settles O56: the POP writes back the pushed byte and the stack pointer from before the PUSH. -/
theorem pushThenPopRestores : Obligations.PushThenPopRestores := by
  intro r s hm hsp
  rw [← s.spBelow_toNat]
  refine ⟨_, _, exec_push r hsp, exec_pop_afterPush hm hsp r, rfl, rfl,
    fun q _ => reg_afterPush_restored s (s.regBelow r) r q, ?_, s.memAsBefore_afterPush (s.regBelow r)⟩
  rw [State.reg_advance, State.afterPush_reg_SP]
  exact State.byteAt_afterPush hm (s.regBelow r)

/-- Settles O57: the completion of CALL says what it pushed and where, the completion of RET what it reads there. -/
theorem retContinuesAfterCall : Obligations.RetContinuesAfterCall := by
  intro a s t u hm hpc hsp hcall hureg hubyte
  obtain ⟨sp, t', -, hsp', hcall', htreg, htbyte, -⟩ := callCompletes a s hm hpc hsp
  obtain rfl : t' = t := Host.Outcome.next.inj (hcall'.symm.trans hcall)
  rw [htreg] at hureg hubyte
  have hlt : (u.reg SP).toNat < 255 := by have := (s.reg SP).isLt; rw [hureg]; omega
  obtain ⟨v, hret, hv⟩ := retCompletes.1 u hlt
  refine ⟨v, hret, ?_, BitVec.eq_of_toNat_eq ?_, hv.run⟩
  · rw [hv.pc, hureg, hubyte, htbyte]
  · rw [hv.sp, hureg, hsp']

/-- Settles O58: the ST advances to its own b2, which is x[B] if the ST wrote there and the register byte of B if not;
that byte is HLT's opcode or none. -/
theorem stIsFollowedByItsOperand : Obligations.StIsFollowedByItsOperand := by
  intro s t a b hm hr hpc hw h
  rw [step_eq_stepWith, stepWith_st defaultOpcode_wellFormed hr hw] at h
  have hpc' : t.pc.toNat = s.pc.toNat + 2 := by
    obtain rfl := Host.Outcome.next.inj h
    exact State.advance_stAmount_pc_toNat hw.1 .two
  have hrun : t.run = .running := by
    obtain rfl := Host.Outcome.next.inj h
    exact hr
  have hbyte : t.byteAt t.pc.toNat = if (s.reg a).toNat = s.pc.toNat + 2 then s.reg b else regByte b := by
    obtain ⟨-, -, -, hb2⟩ := hw
    rw [hpc', ← hb2]
    obtain rfl := Host.Outcome.next.inj h
    exact (State.byteAt_setByte hm _ _ _).trans (if_congr eq_comm rfl rfl)
  have ht : t.pc.toNat ≤ 253 := by omega
  refine ⟨hrun, hpc', fun hown => by rw [hbyte, if_pos hown], fun hother => ?_⟩
  rw [if_neg hother] at hbyte
  refine ⟨?_, fun hb => ?_⟩
  · rintro rfl
    exact (step_eq_stepWith t).trans
      ((onlyHltEndsCleanly machineConfig t defaultOpcode_wellFormed hrun).2 ht hbyte)
  · have hstep := stepWith_of_unassigned (cfg := machineConfig) hrun ⟨ht, hbyte, rfl, rfl⟩ (defaultOpcode_ne_regByte hb)
    rw [regByte_toNat] at hstep
    exact (step_eq_stepWith t).trans hstep

/-- Settles O59: JEQ and JNE read the flag CMP left, which each equal rule reads as an order of the operands. -/
theorem jumpsAfterCmp : Obligations.JumpsAfterCmp := by
  refine ⟨fun cfg a b c s hpc => ?_, fun x y => ?_⟩
  · have hpc' : ((s.setFlags (aluCompare cfg.cmpEqual (s.reg a) (s.reg b))).advance 3).pc.toNat = s.pc.toNat + 3 :=
      State.advance_pc_toNat_of_le (hpc.trans (by decide)) le_rfl
    obtain ⟨⟨u, hu, hupc, -⟩, ⟨v, hv, hvpc, -⟩, -⟩ :=
      jumpsComplete c ((s.setFlags (aluCompare cfg.cmpEqual (s.reg a) (s.reg b))).advance 3) (by omega)
    rw [hpc'] at hupc hvpc
    simp only [State.advance_fl, State.setFlags_fl, State.reg_advance, State.reg_setFlags] at hupc hvpc
    refine ⟨_, u, v, execWith_eq cfg (.cmp a b) s, hu, hv, fun hlit => ?_, fun hcor => ?_⟩
    · simp only [hlit, aluCompare_literal_e_iff, Nat.not_lt] at hupc hvpc
      refine ⟨hupc, hvpc.trans ?_⟩
      simp only [← Nat.not_lt, ite_not]
    · simp only [hcor, aluCompare_corrected_e_iff] at hupc hvpc
      exact ⟨hupc, hvpc⟩
  · obtain h | h | h := Nat.lt_trichotomy x.toNat y.toNat
    · rw [aluCompare_of_lt h, aluCompare_of_lt h]
      exact iff_of_true rfl h.le
    · rw [aluCompare_of_eq h, aluCompare_of_eq h]
      exact iff_of_true rfl h.le
    · rw [aluCompare_literal_of_gt h, aluCompare_corrected_of_gt h]
      exact iff_of_false (by decide) h.not_ge

end Sys2Proof.Machine
end
